-- ==== Sys2Proof/Word.lean ====
section
/-! DEFINITION. The machine's plain data widths (00_scope.md R9, R10; 20_memory.md R60). -/

namespace Sys2Proof

/-- `u8`: one byte (R10). -/
abbrev Byte := BitVec 8

/-- `u32`: one 32-bit word (R10). -/
abbrev Word := BitVec 32

/-- A byte address on the host bus, ADDR_BITS = 16 (R8, R60). -/
abbrev Addr := BitVec 16

/-- `zeros(n)`: n bytes of 0x00 (R10). -/
def zeros (n : Nat) : List Byte := List.replicate n 0

end Sys2Proof
end

