-- ==== Sys2Proof/Syntax.lean ====
section
/-! DEFINITION. The command set RC6CORE-CMD version 1 (30_encoding.md R92): one constructor per row of the table. -/

namespace Sys2Proof

/-- A command. Its operands are implicit and fixed per opcode (R91), so no constructor but the last has a field.
`illegal` carries the command word, since every word outside the eight names it (R93, R94; log 20). -/
inductive Instr
  /-- 0x00000000 (R116). -/
  | nop
  /-- 0x00000001 (R157). -/
  | keysched
  /-- 0x00000002 (R177). -/
  | encb
  /-- 0x00000003 (R178). -/
  | decb
  /-- 0x00000004 (R193). -/
  | pad
  /-- 0x00000005 (R197). -/
  | unpad
  /-- 0x00000006 (R199). -/
  | encm
  /-- 0x00000007 (R201). -/
  | decm
  /-- Every other word (R117). -/
  | illegal (w : Word)
  deriving DecidableEq, Repr

end Sys2Proof
end

