-- ==== Sys2Proof/WellFormed.lean ====
section
/-! DEFINITION. Which terms of `Instr` stand for a command word (30_encoding.md R93). -/

namespace Sys2Proof

/-- The words that decode to ILLEGAL: RSV (bits 31..4) nonzero, or OPCODE (bits 3..0) in 0x8..0xF (R93, R94). -/
def isIllegalWord (w : Word) : Bool :=
  decide (w.toNat / 16 ≠ 0) || decide (8 ≤ w.toNat % 16)

/-- An `illegal` term is well formed when its word is none of the eight command words; every other term is. -/
def Instr.wellFormed : Instr → Bool
  | .nop => true
  | .keysched => true
  | .encb => true
  | .decb => true
  | .pad => true
  | .unpad => true
  | .encm => true
  | .decm => true
  | .illegal w => isIllegalWord w

end Sys2Proof
end

