-- ==== Sys2Proof/Decode.lean ====
section
/-! DEFINITION. From a command word to a command, and back (30_encoding.md R90 to R94). -/

namespace Sys2Proof

/-- OPCODE, bits [3:0] of the command word (R90). -/
def opcodeField (w : Word) : BitVec 4 := w.extractLsb' 0 4

/-- RSV, bits [31:4] of the command word (R90). -/
def rsvField (w : Word) : BitVec 28 := w.extractLsb' 4 28

/-- `decode` of R93: total on the 32-bit word. -/
def decode (w : Word) : Instr :=
  if rsvField w = 0 then
    match (opcodeField w).toNat with
    | 0 => .nop
    | 1 => .keysched
    | 2 => .encb
    | 3 => .decb
    | 4 => .pad
    | 5 => .unpad
    | 6 => .encm
    | 7 => .decm
    | _ => .illegal w
  else .illegal w

/-- Why a sequence of bytes gives no command word. -/
inductive DecodeReject
  /-- Fewer than the four bytes of a command word are left: every command word is exactly 32 bits (R90). -/
  | truncated
  deriving DecidableEq, Repr

/-- The u32 of four bytes, the first the least significant (41_datapath.md R130, 20_memory.md R63). -/
def wordOfBytes (b0 b1 b2 b3 : Byte) : Word := b3 ++ b2 ++ b1 ++ b0

/-- The four bytes of a u32, the least significant first (41_datapath.md R131). -/
def bytesOfWord (w : Word) : List Byte :=
  [w.extractLsb' 0 8, w.extractLsb' 8 8, w.extractLsb' 16 8, w.extractLsb' 24 8]

/-- The decoder on any bytes: the first four are a command word in the byte order of R63 (log 14), and the rest is
handed back. Fewer than four are rejected by name. -/
def decodeBytes : List Byte → Except DecodeReject (Instr × List Byte)
  | b0 :: b1 :: b2 :: b3 :: rest => .ok (decode (wordOfBytes b0 b1 b2 b3), rest)
  | _ => .error .truncated

/-- The instruction the decoder reads from a row's word `w` of `nbits` bits, every bit above `nbits` being 0. No
command is longer than 32 bits (R90). -/
def decodeTableWord (nbits w : Nat) : Option Instr :=
  if nbits ≤ 32 then
    match decodeBytes (bytesOfWord (BitVec.ofNat 32 (w % 2 ^ nbits))) with
    | .ok (i, _) => some i
    | .error _ => none
  else none

/-- The command word of a command, from the table of R92. -/
def encode : Instr → Word
  | .nop => 0x00000000
  | .keysched => 0x00000001
  | .encb => 0x00000002
  | .decb => 0x00000003
  | .pad => 0x00000004
  | .unpad => 0x00000005
  | .encm => 0x00000006
  | .decm => 0x00000007
  | .illegal w => w

/-- The command word's bytes, in the byte order of R63. -/
def encodeBytes (i : Instr) : List Byte := bytesOfWord (encode i)

end Sys2Proof
end

