-- ==== Sys2Proof/Machine/Datapath.lean ====
section
/-! DEFINITION. The word codec and the 32-bit datapath (41_datapath.md). Pure functions; none sets a flag. -/

namespace Sys2Proof.Machine

/-- `bytesToWords` (R130): little-endian words of a byte sequence. Its callers pass a multiple of 4 bytes; an
incomplete last word would be dropped (log 15). -/
def bytesToWords : List Byte → List Word
  | b0 :: b1 :: b2 :: b3 :: rest => wordOfBytes b0 b1 b2 b3 :: bytesToWords rest
  | _ => []

/-- `wordsToBytes` (R131). -/
def wordsToBytes (ws : List Word) : List Byte := ws.flatMap bytesOfWord

/-- `rotl` (R132): only `n mod 32` matters, and 0 means no rotation. -/
def rotl (x : Word) (n : Nat) : Word :=
  let k := n % 32
  if k = 0 then x else (x <<< k) ||| (x >>> (32 - k))

/-- `rotr` (R133). -/
def rotr (x : Word) (n : Nat) : Word :=
  let k := n % 32
  if k = 0 then x else (x >>> k) ||| (x <<< (32 - k))

/-- `add32` (R134): modulo 2^32, no carry out. -/
def add32 (a b : Word) : Word := a + b

/-- `sub32` (R135): modulo 2^32. -/
def sub32 (a b : Word) : Word := a - b

/-- `mul32` (R136): the low 32 bits of the product. -/
def mul32 (a b : Word) : Word := a * b

/-- `xor32` (R137). -/
def xor32 (a b : Word) : Word := a ^^^ b

/-- `amt` (R138): the rotation amount taken from a word, its low five bits. -/
def amt (x : Word) : Nat := (x &&& 0x1F).toNat

/-- LGW = 5, the fixed rotation of `f` (00_scope.md R7). -/
def lgw : Nat := 5

/-- `f(x) = rotl(x * (2x + 1), LGW)` (R139). -/
def f (x : Word) : Word := rotl (mul32 x (add32 (add32 x x) 1)) lgw

end Sys2Proof.Machine
end

