-- ==== Sys2Proof/Config.lean ====
section
/-! DEFINITION. What RC6CORE fixes for itself (00_scope.md R7, R8) and the values the spec leaves free. -/

namespace Sys2Proof

/-- KEY_BYTES_MAX: the largest key length in bytes (R8). -/
def Config.keyBytesMax : Nat := 256

/-- BUF_BYTES: the capacity of MSGIN and of MSGOUT (R8). -/
def Config.bufBytes : Nat := 4096

/-- ENC_MSG_MAX = BUF_BYTES - 1: the largest message of PAD and ENCM (R8). -/
def Config.encMsgMax : Nat := Config.bufBytes - 1

/-- DEC_MSG_MAX = BUF_BYTES: the largest input of UNPAD and DECM (R8). -/
def Config.decMsgMax : Nat := Config.bufBytes

/-- The byte a buffer cell holds after the reset numbered by the first argument, at the window address
given by the second, until something writes it (10_state.md R43, 20_memory.md R73: "any value"). No body:
nothing can be proved of it. Log 3. -/
opaque Config.powerOnByte : Nat → Nat → Byte

/-- Free words ("any value", 00_scope.md R16): word number `k` of draw number `n` is `anyWord n k`. Used for a
host read of an engine-written location while BUSY = 1 (20_memory.md R71; log 4), for KA and KB after a key
schedule (42_key_schedule.md R156; log 6) and for the counters of R37 (log 8). No body. -/
opaque Config.anyWord : Nat → Nat → Word

/-- Free contents of the key word array L, one for each draw: what L holds after a key schedule (10_state.md R34,
42_key_schedule.md R156; log 6). No body. -/
opaque Config.anyKeyArray : Nat → Vector Word 64

end Sys2Proof
end

