-- ==== Sys2Proof/Machine/State.lean ====
section
/-! DEFINITION. The machine's state (10_state.md), its values after reset (R43), and the reasons a step could stop. -/

namespace Sys2Proof.Machine

/-- Why a step could stop the machine with a fault. RC6CORE has no such case, so the type is empty: an error of a
command is a completion reported in STATUS (60_exceptions.md R224), a bus error is the response of an access
(R225), and every command completes (40_command_protocol.md R113). Nothing raises one. Safe. -/
inductive Fault
  deriving DecidableEq, Repr

/-- Why an instruction could have no meaning. -/
inductive Refusal
  /-- The instruction has no meaning in the model yet. Raised only by a refused arm of `exec`, and no arm is one.
  Safe: nothing is proved of a run that stops here. -/
  | notModelled (mnemonic : String)
  deriving DecidableEq, Repr

/-- PHASE (R40). -/
inductive Phase
  | idle
  | running
  deriving DecidableEq, Repr

/-- STATUS (R25). The reserved bits [7:5] and [31:12] are never set, read 0 and ignore writes, so they have no
field; `statusWord` lays the fields out as the word software reads. -/
structure Status where
  busy : Bool
  done : Bool
  err : Bool
  keyv : Bool
  padwarn : Bool
  errcode : BitVec 4
  deriving DecidableEq, Repr

/-- IRQEN (R27): bit 0 and bit 1. -/
structure IrqEnables where
  doneIe : Bool
  errIe : Bool
  deriving DecidableEq, Repr

/-- The block register file (R36): A, B, C, D and the round temporaries tt and uu. -/
structure BlockRegs where
  a : Word
  b : Word
  c : Word
  d : Word
  tt : Word
  uu : Word
  deriving DecidableEq, Repr

/-- The sequencer's counters (R37), each within its range: KI below the largest V (192, 42_key_schedule.md R155),
SI below 44, LJ below C_MAX, RND 1..20 (0 before the first round), BLK below 256 blocks, SCAN below BUF_BYTES. -/
structure Counters where
  ki : Fin 192
  si : Fin 44
  lj : Fin 64
  rnd : Fin 21
  blk : Fin 256
  scan : Fin 4096
  deriving DecidableEq, Repr

/-- The engine's internal working registers, which no host access reaches (R34 to R37, R42). -/
structure EngineRegs where
  l : Vector Word 64
  ka : Word
  kb : Word
  block : BlockRegs
  counters : Counters
  deriving DecidableEq, Repr

/-- The contents of the buffers (R32): (window address, byte) cells, addresses strictly rising (`Memory.wf`). A
byte that is not listed was never written since reset, so no value is stored for it: `readByte` gives it the free
byte of `Config.powerOnByte` (R43, log 3). -/
abbrev Memory := List Host.Cell

/-- One move of an agent or of the world outside (00_scope.md R5, 70_reset_and_hazards.md R250). The model's own
type: the list of the moves to come stands in `State.inputs` (log 1). -/
inductive Event
  /-- The host performs BusRead(addr) (20_memory.md R61). -/
  | hostRead (addr : Addr)
  /-- The host performs BusWrite(addr, data) (R62). -/
  | hostWrite (addr : Addr) (data : Word)
  /-- The engine takes its step: the completion of the running command (40_command_protocol.md R112). -/
  | engine
  /-- The reset input is asserted (R250). -/
  | reset
  deriving DecidableEq, Repr

/-- What a host access returns (R61, R62). The model's own type (log 2). -/
inductive BusResponse
  | read (data : Word) (err : Bool)
  | write (err : Bool)
  deriving DecidableEq, Repr

/-- Everything the spec gives the machine (R43 lists it), then the model's own four fields. ID, PARAM and CMD
hold no state (R22 to R24), and IRQ is a function (R39). -/
@[ext]
structure State where
  /-- STATUS (R25). -/
  status : Status
  /-- IRQEN (R27). -/
  irqen : IrqEnables
  /-- KEYLEN.KLEN (R28). -/
  keylen : BitVec 9
  /-- MSGLEN.MLEN (R29). -/
  msglen : BitVec 13
  /-- OUTLEN.OLEN (R30). -/
  outlen : BitVec 13
  /-- MARKER.MVAL (R31). -/
  marker : Byte
  /-- KEY, SUBKEY, BLKIN, BLKOUT, MSGIN and MSGOUT (R32). -/
  mem : Memory
  /-- L, KA, KB, A, B, C, D, tt, uu and the counters (R34 to R37). -/
  engine : EngineRegs
  /-- OPW, the latched command word (R38). -/
  opw : Word
  /-- PHASE (R40). -/
  phase : Phase
  /-- The model's own: the moves to come, oldest first (log 1). -/
  inputs : List Event
  /-- The model's own: what the last host access returned (log 2). -/
  resp : Option BusResponse
  /-- The model's own: the number of the next draw of free values (log 4). -/
  draws : Nat
  /-- The model's own: how often the reset input was asserted, which numbers the contents the buffers come up
  with (log 3). -/
  resets : Nat
  deriving DecidableEq, Repr

/-- STATUS after reset, 0x00000000 (R43). -/
def Status.reset : Status :=
  { busy := false, done := false, err := false, keyv := false, padwarn := false, errcode := 0 }

/-- The internal registers after reset. R43 gives them any value, unobservable; the model names zero
(DESIGN CHOICE, log 5). -/
def EngineRegs.reset : EngineRegs :=
  { l := Vector.replicate 64 0
    ka := 0
    kb := 0
    block := { a := 0, b := 0, c := 0, d := 0, tt := 0, uu := 0 }
    counters := { ki := 0, si := 0, lj := 0, rnd := 0, blk := 0, scan := 0 } }

/-- The machine right after reset (R43, R250): no buffer byte has been written, and nothing is to come. OPW at zero
is the model's choice (log 5), the last four fields are its own (log 16). -/
def State.reset : State :=
  { status := Status.reset
    irqen := { doneIe := false, errIe := false }
    keylen := 0
    msglen := 0
    outlen := 0
    marker := 0
    mem := []
    engine := EngineRegs.reset
    opw := 0
    phase := .idle
    inputs := []
    resp := none
    draws := 0
    resets := 0 }

end Sys2Proof.Machine
end

