-- ==== Sys2Proof/Machine/Flags.lean ====
section
/-! DEFINITION. Every computation of STATUS, of its error codes and of the interrupt line (10_state.md R25 to R27,
40_command_protocol.md R110 and R113, 60_exceptions.md R220 to R230). No arithmetic operation sets a flag (R41). -/

namespace Sys2Proof.Machine

/-- The error causes (R220). Codes 7 to 15 are never written. -/
inductive ErrorCode
  | invalidKey
  | invalidInputLength
  | keyNotScheduled
  | lengthRange
  | paddingNotFound
  | illegalCommand
  deriving DecidableEq, Repr

/-- The code written to STATUS.ERRCODE (R220). -/
def errorNumber : ErrorCode → BitVec 4
  | .invalidKey => 1
  | .invalidInputLength => 2
  | .keyNotScheduled => 3
  | .lengthRange => 4
  | .paddingNotFound => 5
  | .illegalCommand => 6

/-- STATUS as the word a host reads (R25): BUSY [0], DONE [1], ERR [2], KEYV [3], PADWARN [4], ERRCODE [11:8], and
the reserved bits 0. -/
def statusWord (st : Status) : Word :=
  BitVec.ofNat 32
    (st.busy.toNat + 2 * st.done.toNat + 4 * st.err.toNat + 8 * st.keyv.toNat + 16 * st.padwarn.toNat +
      256 * st.errcode.toNat)

/-- IRQEN as the word a host reads (R27). -/
def irqenWord (ie : IrqEnables) : Word := BitVec.ofNat 32 (ie.doneIe.toNat + 2 * ie.errIe.toNat)

/-- The enables a host write of `v` to IRQEN leaves (R27). -/
def irqenOfWord (v : Word) : IrqEnables := { doneIe := v.getLsbD 0, errIe := v.getLsbD 1 }

/-- What acceptance does to STATUS (R110). -/
def acceptStatus (st : Status) : Status :=
  { st with busy := true, done := false, err := false, errcode := 0, padwarn := false }

/-- The report of an error in STATUS (R113, R224): the machine's equivalent of trap entry. -/
def reportError (st : Status) : Option ErrorCode → Status
  | none => st
  | some e => { st with err := true, errcode := errorNumber e }

/-- What completion does to STATUS (R113). -/
def completeStatus (st : Status) (outcome : Option ErrorCode) : Status :=
  { reportError st outcome with done := true, busy := false }

/-- A host write of `v` to STATUS (R26): write one to clear. Clearing ERR also clears ERRCODE, which is how a host
ends an error report (60_exceptions.md R226). -/
def clearStatus (st : Status) (v : Word) : Status :=
  { st with
    done := st.done && !v.getLsbD 1
    err := st.err && !v.getLsbD 2
    errcode := if v.getLsbD 2 then 0 else st.errcode
    padwarn := st.padwarn && !v.getLsbD 4 }

/-- PAD_MARKER = 0x80 (00_scope.md R7). -/
def padMarker : Byte := 0x80

/-- `padwarn(MLEN, k, mk)` (44_message_framer.md R196). -/
def padwarnOf (mlen k : Nat) (mk : Byte) : Bool :=
  decide (mk ≠ padMarker) || decide (mlen - k > 16)

/-- The interrupt output (R230): a level, a function of STATUS and IRQEN. -/
def irq (s : State) : Bool :=
  (s.status.done && s.irqen.doneIe) || (s.status.err && s.irqen.errIe)

end Sys2Proof.Machine
end

