-- ==== Sys2Proof/Machine/Ops.lean ====
section
/-! DEFINITION. The named operations over memory and registers: the buffers and the engine's byte accesses
(10_state.md R32, 20_memory.md R63, R66, R73), acceptance and completion of a command (40_command_protocol.md R110,
R113, with the error report of 60_exceptions.md R224) and the reset input (70_reset_and_hazards.md R250). -/

namespace Sys2Proof.Machine

/-! The buffers. -/

/-- The six buffers, with BLK and MSG pairs counted as the spec's table does (R32). -/
inductive Buffer
  | key
  | subkey
  | blkin
  | blkout
  | msgin
  | msgout
  deriving DecidableEq, Repr

/-- The base of a buffer's window (R66). -/
def bufBase : Buffer → Nat
  | .key => 0x0100
  | .subkey => 0x0200
  | .blkin => 0x0300
  | .blkout => 0x0310
  | .msgin => 0x1000
  | .msgout => 0x2000

/-- The size of a buffer in bytes (R32, R66). -/
def bufSize : Buffer → Nat
  | .key => 256
  | .subkey => 176
  | .blkin => 16
  | .blkout => 16
  | .msgin => 4096
  | .msgout => 4096

/-- Whether an address lies in a buffer's window (R66). -/
def inWindow (b : Buffer) (a : Nat) : Bool := decide (bufBase b ≤ a) && decide (a < bufBase b + bufSize b)

/-- Whether an address lies in some buffer's window (R66). -/
def isBufferAddr (a : Nat) : Bool :=
  inWindow .key a || inWindow .subkey a || inWindow .blkin a || inWindow .blkout a || inWindow .msgin a ||
    inWindow .msgout a

/-! Memory in its one canonical form. -/

/-- The canonical form: addresses strictly rising, so one cell an address. A cell that is not listed holds no
stored value, so no listed cell equals what an unlisted one reads as. -/
def Memory.wf : Memory → Bool
  | [] => true
  | [_] => true
  | (k, _) :: (k', b') :: rest => decide (k < k') && Memory.wf ((k', b') :: rest)

/-- The byte stored at an address, if something has been written there since reset. -/
def Memory.lookup : Memory → Nat → Option Byte
  | [], _ => none
  | (k, b) :: rest, a => if k = a then some b else Memory.lookup rest a

/-- Store one byte, keeping the canonical form. -/
def Memory.store : Memory → Nat → Byte → Memory
  | [], a, v => [(a, v)]
  | (k, b) :: rest, a, v =>
    if a < k then (a, v) :: (k, b) :: rest
    else if a = k then (a, v) :: rest
    else (k, b) :: Memory.store rest a v

/-- Store bytes at rising addresses from `a`. -/
def Memory.storeBytes : Memory → Nat → List Byte → Memory
  | m, _, [] => m
  | m, a, v :: vs => Memory.storeBytes (Memory.store m a v) (a + 1) vs

/-- One byte as the engine and the host read it: the byte stored, or the free byte the cell came up with at the
last reset (R43, R73; log 3). -/
def readByte (s : State) (a : Nat) : Byte :=
  (Memory.lookup s.mem a).getD (Config.powerOnByte s.resets a)

/-- `n` bytes at rising addresses from `a`. -/
def readBytes (s : State) (a : Nat) : Nat → List Byte
  | 0 => []
  | n + 1 => readByte s a :: readBytes s (a + 1) n

/-- `MemRead(BUF, k, n)` (00_scope.md R12). -/
def memRead (s : State) (b : Buffer) (k n : Nat) : List Byte := readBytes s (bufBase b + k) n

/-- `MemWrite(BUF, k, len(v), v)` (00_scope.md R12). -/
def memWrite (s : State) (b : Buffer) (k : Nat) (v : List Byte) : State :=
  { s with mem := Memory.storeBytes s.mem (bufBase b + k) v }

/-! The writes a command commits. -/

/-- One write of a command's list of updates (R113). The first five are the writes the spec's `exec_X` lists; the
last four say what the internal registers hold afterwards (10_state.md R34 to R37). -/
inductive Update
  /-- `MemWrite(BUF, k, len(v), v)`. -/
  | memWrite (b : Buffer) (k : Nat) (v : List Byte)
  /-- `STATUS.KEYV <- 1` (42_key_schedule.md R156). -/
  | keyValid
  /-- `OUTLEN <- n` (10_state.md R30). -/
  | outlen (n : Nat)
  /-- `MARKER <- b` (R31). -/
  | marker (b : Byte)
  /-- `PADWARN <- w` (44_message_framer.md R195). -/
  | padwarn (w : Bool)
  /-- L, KA and KB hold any value after a key schedule of `v` iterations over `c` words (R34, R156; log 6), and so
  do its counters within their ranges (R37; log 8). -/
  | scheduleRegs (c v : Nat)
  /-- The block register file as the last block transform left it (R36; log 7). -/
  | blockRegs (r : BlockRegs)
  /-- BLK after a message of `n` blocks: any value in 0..n-1 (R37; log 8). -/
  | blockIndex (n : Nat)
  /-- SCAN after a scan of `n` bytes: any value in 0..n-1 (R37; log 8). -/
  | scanIndex (n : Nat)
  deriving DecidableEq, Repr

/-- The internal registers after a key schedule: free values of draw `n`, the counters within the ranges of R37. -/
def scheduledRegs (e : EngineRegs) (n c v : Nat) : EngineRegs :=
  { e with
    l := Config.anyKeyArray n
    ka := Config.anyWord n 0
    kb := Config.anyWord n 1
    counters :=
      { e.counters with
        ki := Fin.ofNat 192 ((Config.anyWord n 2).toNat % v)
        si := Fin.ofNat 44 (Config.anyWord n 3).toNat
        lj := Fin.ofNat 64 ((Config.anyWord n 4).toNat % c) } }

/-- The internal registers after block transforms that end with `r`: RND is a free value in 1..20. -/
def transformedRegs (e : EngineRegs) (n : Nat) (r : BlockRegs) : EngineRegs :=
  { e with
    block := r
    counters := { e.counters with rnd := Fin.ofNat 21 (1 + (Config.anyWord n 0).toNat % 20) } }

/-- Apply one update. A draw of free values moves `draws` on. -/
def applyUpdate (s : State) : Update → State
  | .memWrite b k v => memWrite s b k v
  | .keyValid => { s with status := { s.status with keyv := true } }
  | .outlen n => { s with outlen := BitVec.ofNat 13 n }
  | .marker b => { s with marker := b }
  | .padwarn w => { s with status := { s.status with padwarn := w } }
  | .scheduleRegs c v => { s with engine := scheduledRegs s.engine s.draws c v, draws := s.draws + 1 }
  | .blockRegs r => { s with engine := transformedRegs s.engine s.draws r, draws := s.draws + 1 }
  | .blockIndex n =>
    { s with
      engine :=
        { s.engine with
          counters :=
            { s.engine.counters with blk := Fin.ofNat 256 ((Config.anyWord s.draws 0).toNat % n) } }
      draws := s.draws + 1 }
  | .scanIndex n =>
    { s with
      engine :=
        { s.engine with
          counters :=
            { s.engine.counters with scan := Fin.ofNat 4096 ((Config.anyWord s.draws 0).toNat % n) } }
      draws := s.draws + 1 }

/-- Apply a list of updates, in order. -/
def applyUpdates (s : State) (us : List Update) : State := us.foldl applyUpdate s

/-- What a command's `exec_X` returns (R113): the outcome, `none` for Ok, and the writes. -/
structure CmdResult where
  outcome : Option ErrorCode
  updates : List Update
  deriving DecidableEq, Repr

/-- A check error (60_exceptions.md R224): the outcome alone, no update. -/
def CmdResult.checkError (e : ErrorCode) : CmdResult := { outcome := some e, updates := [] }

/-! Acceptance and completion. -/

/-- Acceptance of a command word (R110): it latches the word, clears the last report and starts the engine. It makes
no check and writes no output. The word stays in OPW after the completion (log 10). -/
def accept (s : State) (w : Word) : State :=
  { s with opw := w, status := acceptStatus s.status, phase := .running }

/-- The end of the completion step (R113): the report in STATUS, DONE, not BUSY, and PHASE back to IDLE. -/
def finish (s : State) (outcome : Option ErrorCode) : State :=
  { s with status := completeStatus s.status outcome, phase := .idle }

/-- The completion step (R113): commit every update, then report. It is also the only place a command's error takes
effect (60_exceptions.md R224): nothing is saved and control goes nowhere. Every command completes, and as one step
(R114; log 9). -/
def complete (s : State) (r : CmdResult) : Host.Outcome State Fault Refusal :=
  .next (finish (applyUpdates s r.updates) r.outcome)

/-- The reset input (R250): every element of state takes its value after reset, in one step, and a running command is
abandoned. The buffers come up with the free contents of the next reset number. The moves still to come, and the
count of draws, are the outside world's and stay (log 12). -/
def assertReset (s : State) : State :=
  { State.reset with inputs := s.inputs, draws := s.draws, resets := s.resets + 1 }

end Sys2Proof.Machine
end

