-- ==== Sys2Proof/Machine/Bus.lean ====
section
/-! DEFINITION. The host bus: the address map and the two kinds of access (20_memory.md R60 to R72). -/

namespace Sys2Proof.Machine

/-- What a mapped address names (R66): a register of 10_state.md R21, or a byte offset in a buffer's window. -/
inductive Location
  | id
  | param
  | cmd
  | status
  | irqen
  | keylen
  | msglen
  | outlen
  | marker
  | window (b : Buffer) (k : Nat)
  deriving DecidableEq, Repr

/-- The register at a byte address (10_state.md R21). -/
def regAt : Nat → Option Location
  | 0x0000 => some .id
  | 0x0004 => some .param
  | 0x0008 => some .cmd
  | 0x000C => some .status
  | 0x0010 => some .irqen
  | 0x0014 => some .keylen
  | 0x0018 => some .msglen
  | 0x001C => some .outlen
  | 0x0020 => some .marker
  | _ => none

/-- The address map (R66). `none` is an unmapped address (R67). The address is aligned when this is asked. -/
def locate (a : Nat) : Option Location :=
  if inWindow .key a then some (.window .key (a - bufBase .key))
  else if inWindow .subkey a then some (.window .subkey (a - bufBase .subkey))
  else if inWindow .blkin a then some (.window .blkin (a - bufBase .blkin))
  else if inWindow .blkout a then some (.window .blkout (a - bufBase .blkout))
  else if inWindow .msgin a then some (.window .msgin (a - bufBase .msgin))
  else if inWindow .msgout a then some (.window .msgout (a - bufBase .msgout))
  else regAt a

/-- addr[1:0] = 0 (R64). -/
def aligned (addr : Addr) : Bool := decide (addr.toNat % 4 = 0)

/-- The buffers a host may only read (R32, R68). -/
def bufReadOnly : Buffer → Bool
  | .subkey => true
  | .blkout => true
  | .msgout => true
  | .key => false
  | .blkin => false
  | .msgin => false

/-- The read-only locations (R68). -/
def readOnly : Location → Bool
  | .id => true
  | .param => true
  | .outlen => true
  | .marker => true
  | .window b _ => bufReadOnly b
  | .cmd => false
  | .status => false
  | .irqen => false
  | .keylen => false
  | .msglen => false

/-- The engine-written locations (R71). -/
def engineWritten : Location → Bool
  | .outlen => true
  | .marker => true
  | .window b _ => bufReadOnly b
  | .id => false
  | .param => false
  | .cmd => false
  | .status => false
  | .irqen => false
  | .keylen => false
  | .msglen => false

/-- Whether a location lies in the SUBKEY window (R69). -/
def isSubkey : Location → Bool
  | .window b _ => decide (b = .subkey)
  | .id => false
  | .param => false
  | .cmd => false
  | .status => false
  | .irqen => false
  | .keylen => false
  | .msglen => false
  | .outlen => false
  | .marker => false

/-- ID (10_state.md R22): "RC6" and the round count. -/
def idWord : Word := 0x52433614

/-- PARAM (10_state.md R23): C_MAX, T_SUB and BUF_BYTES. -/
def paramWord : Word := 0x402C1000

/-- The u32 at byte offset `k` of a buffer (R63). -/
def windowWord (s : State) (b : Buffer) (k : Nat) : Word :=
  (bytesToWords (memRead s b k 4)).getD 0 0

/-- The current 32-bit value of a location (R61): a register with its reserved bits 0, or the word of a window.
CMD reads 0 (10_state.md R24). -/
def locValue (s : State) : Location → Word
  | .id => idWord
  | .param => paramWord
  | .cmd => 0
  | .status => statusWord s.status
  | .irqen => irqenWord s.irqen
  | .keylen => s.keylen.setWidth 32
  | .msglen => s.msglen.setWidth 32
  | .outlen => s.outlen.setWidth 32
  | .marker => s.marker.setWidth 32
  | .window b k => windowWord s b k

/-- `BusRead(addr) -> (data, err)` (R61), its cases in the order the rule gives them. A read of an engine-written
location while BUSY = 1 returns the free word of this read's draw (R71, log 4). -/
def busRead (s : State) (addr : Addr) : Word × Bool :=
  if aligned addr then
    match locate addr.toNat with
    | none => (0, true)
    | some loc =>
      if loc = .cmd then (0, false)
      else if engineWritten loc && s.status.busy then (Config.anyWord s.draws 0, false)
      else if isSubkey loc && !s.status.keyv then (0, false)
      else (locValue s loc, false)
  else (0, true)

/-- The effect of a host write on a location that takes it (R62): a mapped location that is not read-only. The six
input locations are refused while BUSY = 1 (R72). Answers the state and err. -/
def writeLoc (s : State) (loc : Location) (data : Word) : State × Bool :=
  match loc with
  | .status => ({ s with status := clearStatus s.status data }, false)
  | .irqen => ({ s with irqen := irqenOfWord data }, false)
  | .cmd => if s.status.busy then (s, true) else (accept s data, false)
  | .keylen => if s.status.busy then (s, true) else ({ s with keylen := data.setWidth 9 }, false)
  | .msglen => if s.status.busy then (s, true) else ({ s with msglen := data.setWidth 13 }, false)
  | .window b k => if s.status.busy then (s, true) else (memWrite s b k (bytesOfWord data), false)
  | .id => (s, true)
  | .param => (s, true)
  | .outlen => (s, true)
  | .marker => (s, true)

/-- `BusWrite(addr, data) -> err` (R62), its cases in the order the rule gives them. -/
def busWrite (s : State) (addr : Addr) (data : Word) : State × Bool :=
  if aligned addr then
    match locate addr.toNat with
    | none => (s, true)
    | some loc => if readOnly loc then (s, true) else writeLoc s loc data
  else (s, true)

/-- The response of a host access reaches the host. -/
def respond (s : State) (r : BusResponse) : State := { s with resp := some r }

/-- The next draw of free values. -/
def drawn (s : State) : State := { s with draws := s.draws + 1 }

/-- The host performs a read: no state of the device changes (R61). The response stands in `resp`, and the draw the
read may have taken is used up. -/
def hostRead (s : State) (addr : Addr) : State :=
  drawn (respond s (.read (busRead s addr).1 (busRead s addr).2))

/-- The host performs a write: its effect, and its err in `resp`. -/
def hostWrite (s : State) (addr : Addr) (data : Word) : State :=
  respond (busWrite s addr data).1 (.write (busWrite s addr data).2)

end Sys2Proof.Machine
end

