-- ==== Sys2Proof/Machine/Operands.lean ====
section
/-! DEFINITION. The implicit operands of the commands (30_encoding.md R91) and the checks on them
(60_exceptions.md R221, R222). -/

namespace Sys2Proof.Machine

/-- KLEN, zero-extended (R91). -/
def klen (s : State) : Nat := s.keylen.toNat

/-- MLEN, zero-extended (R91). -/
def mlen (s : State) : Nat := s.msglen.toNat

/-- `MemRead(KEY, 0, KLEN)`: the key. -/
def keyBytes (s : State) : List Byte := memRead s .key 0 (klen s)

/-- `MemRead(MSGIN, 0, MLEN)`: the input message (44_message_framer.md R190). -/
def msgBytes (s : State) : List Byte := memRead s .msgin 0 (mlen s)

/-- `MemRead(BLKIN, 0, 16)`: the input block. -/
def blkinBytes (s : State) : List Byte := memRead s .blkin 0 16

/-- S[0..43], the words of the SUBKEY buffer (10_state.md R33). -/
def subkeys (s : State) : List Word := bytesToWords (memRead s .subkey 0 176)

/-- The check of ENCB and DECB (R222 item 2). -/
def keyValidCheck (s : State) : Option ErrorCode :=
  if s.status.keyv then none else some .keyNotScheduled

/-- The key checks, INVALID_KEY then LENGTH_RANGE (R221, R222 item 3). -/
def keyCheck (s : State) : Option ErrorCode :=
  if klen s = 0 then some .invalidKey
  else if klen s > Config.keyBytesMax then some .lengthRange
  else none

/-- The message check of PAD and ENCM (R221). -/
def encLengthCheck (s : State) : Option ErrorCode :=
  if mlen s > Config.encMsgMax then some .lengthRange else none

/-- The message checks of UNPAD and DECM, INVALID_INPUT_LENGTH then LENGTH_RANGE (R221, R222 item 4). -/
def decLengthCheck (s : State) : Option ErrorCode :=
  if mlen s = 0 ∨ mlen s % 16 ≠ 0 then some .invalidInputLength
  else if mlen s > Config.decMsgMax then some .lengthRange
  else none

/-- The first check that fails, in order (R222). -/
def firstError : List (Option ErrorCode) → Option ErrorCode
  | [] => none
  | some e :: _ => some e
  | none :: rest => firstError rest

/-- A command with its checks (R222, R224): the first failing check ends it with no update, else it runs. -/
def checked (checks : List (Option ErrorCode)) (run : CmdResult) : CmdResult :=
  match firstError checks with
  | some e => CmdResult.checkError e
  | none => run

end Sys2Proof.Machine
end

