-- ==== Sys2Proof/Machine/Control.lean ====
section
/-! DEFINITION. NOP and the illegal commands (40_command_protocol.md R116, R117). -/

namespace Sys2Proof.Machine

/-- `exec_NOP` (R116). -/
def nopResult (_ : State) : CmdResult := { outcome := none, updates := [] }

/-- NOP (R116, R113). -/
def execNop (s : State) : Host.Outcome State Fault Refusal := complete s (nopResult s)

/-- `exec_ILLEGAL` (R117): ILLEGAL_COMMAND, whatever the word. -/
def illegalResult (_ : Word) (_ : State) : CmdResult := CmdResult.checkError .illegalCommand

/-- ILLEGAL (R117, R113). -/
def execIllegal (w : Word) (s : State) : Host.Outcome State Fault Refusal := complete s (illegalResult w s)

end Sys2Proof.Machine
end

