-- ==== Sys2Proof/Machine/BlockTransform.lean ====
section
/-! DEFINITION. The block transform pipeline, ENCB and DECB (43_block_transform.md). -/

namespace Sys2Proof.Machine

/-- R = 20 rounds (00_scope.md R7). -/
def rounds : Nat := 20

/-- S[i] (00_scope.md R12). -/
def subkey (S : List Word) (i : Nat) : Word := S.getD i 0

/-- Block load (R170): the four little-endian words of a 16-byte block. -/
def loadBlock (blk : List Byte) : BlockRegs :=
  let ws := bytesToWords blk
  { a := ws.getD 0 0, b := ws.getD 1 0, c := ws.getD 2 0, d := ws.getD 3 0, tt := 0, uu := 0 }

/-- Block store (R171). -/
def storeBlock (r : BlockRegs) : List Byte := wordsToBytes [r.a, r.b, r.c, r.d]

/-- `encRound(i)` (R173). -/
def encRound (S : List Word) (r : BlockRegs) (i : Nat) : BlockRegs :=
  let tt := f r.b
  let uu := f r.d
  let a := add32 (rotl (xor32 r.a tt) (amt uu)) (subkey S (2 * i))
  let c := add32 (rotl (xor32 r.c uu) (amt tt)) (subkey S (2 * i + 1))
  { a := r.b, b := c, c := r.d, d := a, tt := tt, uu := uu }

/-- `decRound(i)` (R175): the inverse role rotation, then C and A. -/
def decRound (S : List Word) (r : BlockRegs) (i : Nat) : BlockRegs :=
  let a := r.d
  let b := r.a
  let c := r.b
  let d := r.c
  let uu := f d
  let tt := f b
  { a := xor32 (rotr (sub32 a (subkey S (2 * i))) (amt uu)) tt
    b := b
    c := xor32 (rotr (sub32 c (subkey S (2 * i + 1))) (amt tt)) uu
    d := d
    tt := tt
    uu := uu }

/-- Input whitening (R172 step 2). -/
def whitenIn (S : List Word) (r : BlockRegs) : BlockRegs :=
  { r with b := add32 r.b (subkey S 0), d := add32 r.d (subkey S 1) }

/-- Output whitening (R172 step 4): S[2R+2] and S[2R+3]. -/
def whitenOut (S : List Word) (r : BlockRegs) : BlockRegs :=
  { r with a := add32 r.a (subkey S (2 * rounds + 2)), c := add32 r.c (subkey S (2 * rounds + 3)) }

/-- Undo step 4 (R174). -/
def unwhitenOut (S : List Word) (r : BlockRegs) : BlockRegs :=
  { r with c := sub32 r.c (subkey S (2 * rounds + 3)), a := sub32 r.a (subkey S (2 * rounds + 2)) }

/-- Undo step 2 (R174). -/
def unwhitenIn (S : List Word) (r : BlockRegs) : BlockRegs :=
  { r with d := sub32 r.d (subkey S 1), b := sub32 r.b (subkey S 0) }

/-- The round numbers 1..20, in order. -/
def roundNumbers : List Nat := List.range' 1 rounds

/-- The block register file after an encryption (R172). -/
def encryptRegs (blk : List Byte) (S : List Word) : BlockRegs :=
  whitenOut S (roundNumbers.foldl (encRound S) (whitenIn S (loadBlock blk)))

/-- `encryptBlock(blk, S)` (R172). -/
def encryptBlock (blk : List Byte) (S : List Word) : List Byte := storeBlock (encryptRegs blk S)

/-- The block register file after a decryption (R174): the rounds run from 20 down to 1. -/
def decryptRegs (blk : List Byte) (S : List Word) : BlockRegs :=
  unwhitenIn S (roundNumbers.reverse.foldl (decRound S) (unwhitenOut S (loadBlock blk)))

/-- `decryptBlock(blk, S)` (R174). -/
def decryptBlock (blk : List Byte) (S : List Word) : List Byte := storeBlock (decryptRegs blk S)

/-- `exec_ENCB` (R177). -/
def encbResult (s : State) : CmdResult :=
  checked [keyValidCheck s]
    { outcome := none
      updates :=
        [ .memWrite .blkout 0 (encryptBlock (blkinBytes s) (subkeys s)),
          .blockRegs (encryptRegs (blkinBytes s) (subkeys s)) ] }

/-- ENCB (R177, R113). -/
def execEncb (s : State) : Host.Outcome State Fault Refusal := complete s (encbResult s)

/-- `exec_DECB` (R178). -/
def decbResult (s : State) : CmdResult :=
  checked [keyValidCheck s]
    { outcome := none
      updates :=
        [ .memWrite .blkout 0 (decryptBlock (blkinBytes s) (subkeys s)),
          .blockRegs (decryptRegs (blkinBytes s) (subkeys s)) ] }

/-- DECB (R178, R113). -/
def execDecb (s : State) : Host.Outcome State Fault Refusal := complete s (decbResult s)

end Sys2Proof.Machine
end

