-- ==== Sys2Proof/Machine/KeySchedule.lean ====
section
/-! DEFINITION. The key schedule engine and KEYSCHED (42_key_schedule.md). -/

namespace Sys2Proof.Machine

/-- T_SUB = 44 subkey words (00_scope.md R7). -/
def tSub : Nat := 44

/-- P32, the initial subkey S[0] (00_scope.md R7). -/
def p32 : Word := 0xB7E15163

/-- Q32, the subkey initialisation increment (00_scope.md R7). -/
def q32 : Word := 0x9E3779B9

/-- Step 1 (R151): the key with zero bytes up to a multiple of 4. -/
def padKey (key : List Byte) : List Byte := key ++ zeros ((4 - key.length % 4) % 4)

/-- c, the key length in words (R151). -/
def keyWords (key : List Byte) : Nat := (padKey key).length / 4

/-- `n` words from `s0`, each the one before plus Q32. -/
def arithSeq (s0 : Word) : Nat → List Word
  | 0 => []
  | n + 1 => s0 :: arithSeq (add32 s0 q32) n

/-- Step 3 (R153): S[0] = P32 and S[i] = S[i-1] + Q32 for i in 1..43. -/
def initialSubkeys : List Word := arithSeq p32 tSub

/-- The registers of the mixing loop (R154): S, L, KA, KB and the indices i and j. -/
structure MixRegs where
  s : List Word
  l : List Word
  ka : Word
  kb : Word
  i : Nat
  j : Nat
  deriving DecidableEq, Repr

/-- One mixing iteration (R154). The KB line uses the KA just computed and the KB of the iteration before. -/
def mixIter (c : Nat) (m : MixRegs) : MixRegs :=
  let ka := rotl (add32 (add32 (m.s.getD m.i 0) m.ka) m.kb) 3
  let kb := rotl (add32 (add32 (m.l.getD m.j 0) ka) m.kb) (amt (add32 ka m.kb))
  { s := m.s.set m.i ka
    l := m.l.set m.j kb
    ka := ka
    kb := kb
    i := (m.i + 1) % tSub
    j := (m.j + 1) % c }

/-- `n` mixing iterations. -/
def mixLoop (c : Nat) : Nat → MixRegs → MixRegs
  | 0, m => m
  | n + 1, m => mixLoop c n (mixIter c m)

/-- V = 3 * max(c, 44), the iteration count (R154, R155). -/
def mixCount (c : Nat) : Nat := 3 * max c tSub

/-- Steps 1 to 4 (R151 to R154): the registers after the last iteration. Step 2 (R152) loads L. -/
def mixKey (key : List Byte) : MixRegs :=
  mixLoop (keyWords key) (mixCount (keyWords key))
    { s := initialSubkeys, l := bytesToWords (padKey key), ka := 0, kb := 0, i := 0, j := 0 }

/-- `keySchedule(key)` (R150): S[0..43]. It reads nothing but its argument. -/
def keySchedule (key : List Byte) : List Word := (mixKey key).s

/-- The commit of the subkey array (R156): every S[i] to SUBKEY at 4i, KEYV set, and L, KA, KB any value. -/
def commitSubkeys (key : List Byte) : List Update :=
  [ .memWrite .subkey 0 (wordsToBytes (keySchedule key)),
    .keyValid,
    .scheduleRegs (keyWords key) (mixCount (keyWords key)) ]

/-- `exec_KEYSCHED` (R157). -/
def keyschedResult (s : State) : CmdResult :=
  checked [keyCheck s] { outcome := none, updates := commitSubkeys (keyBytes s) }

/-- KEYSCHED (R157, R113). -/
def execKeysched (s : State) : Host.Outcome State Fault Refusal := complete s (keyschedResult s)

end Sys2Proof.Machine
end

