-- ==== Sys2Proof/Machine/Framer.lean ====
section
/-! DEFINITION. The message framer: padder, block scheduler, depadder, and PAD, UNPAD, ENCM and DECM
(44_message_framer.md). -/

namespace Sys2Proof.Machine

/-- padLen = 16 - (len(m) mod 16) (R191). -/
def padLen (n : Nat) : Nat := 16 - n % 16

/-- `pad(m)` (R191). -/
def pad (m : List Byte) : List Byte := m ++ padMarker :: zeros (padLen m.length - 1)

/-- What the depadder finds (R194). -/
inductive Depad
  | found (k : Nat) (mk : Byte)
  | notFound
  deriving DecidableEq, Repr

/-- The depadder's scan of the bytes below index `n`, from the last one down (R194). -/
def unpadScan (p : List Byte) : Nat → Depad
  | 0 => .notFound
  | k + 1 => if p.getD k 0 = 0 then unpadScan p k else .found k (p.getD k 0)

/-- `unpad(p)` (R194). -/
def unpad (p : List Byte) : Depad := unpadScan p p.length

/-- The depadder's writes (R195), for a command whose input has `n` bytes. -/
def depadUpdates (n : Nat) : Depad → List Update
  | .found k mk => [.outlen k, .marker mk, .padwarn (padwarnOf n k mk), .scanIndex n]
  | .notFound => [.outlen 0, .marker 0, .scanIndex n]

/-- The depadder's outcome (R195). -/
def depadOutcome : Depad → Option ErrorCode
  | .found _ _ => none
  | .notFound => some .paddingNotFound

/-- Block number `blk` of a byte sequence: p[16*blk .. 16*blk+16). -/
def blockAt (p : List Byte) (blk : Nat) : List Byte := (p.drop (16 * blk)).take 16

/-- The block scheduler (R199 step 4, R201 step 2, R203): transform blocks 0..n-1 in order and join the results. -/
def mapBlocks (g : List Byte → List Byte) (p : List Byte) (n : Nat) : List Byte :=
  (List.range n).flatMap fun blk => g (blockAt p blk)

/-- The padded message encrypted block by block (R199 steps 2 to 4). -/
def encryptMessage (key m : List Byte) : List Byte :=
  mapBlocks (fun b => encryptBlock b (keySchedule key)) (pad m) ((pad m).length / 16)

/-- The ciphertext decrypted block by block (R201 step 2): the padded plaintext. -/
def decryptMessage (key ct : List Byte) : List Byte :=
  mapBlocks (fun b => decryptBlock b (keySchedule key)) ct (ct.length / 16)

/-- `exec_PAD` (R193). -/
def padResult (s : State) : CmdResult :=
  checked [encLengthCheck s]
    { outcome := none
      updates := [.memWrite .msgout 0 (pad (msgBytes s)), .outlen (pad (msgBytes s)).length] }

/-- PAD (R193, R113). -/
def execPad (s : State) : Host.Outcome State Fault Refusal := complete s (padResult s)

/-- `exec_UNPAD` (R197): MSGOUT receives a copy of the whole input. -/
def unpadResult (s : State) : CmdResult :=
  checked [decLengthCheck s]
    { outcome := depadOutcome (unpad (msgBytes s))
      updates := .memWrite .msgout 0 (msgBytes s) :: depadUpdates (mlen s) (unpad (msgBytes s)) }

/-- UNPAD (R197, R113). -/
def execUnpad (s : State) : Host.Outcome State Fault Refusal := complete s (unpadResult s)

/-- The updates of ENCM for a key and a message (R199). The last block transformed leaves the block register file. -/
def encmUpdates (key m : List Byte) : List Update :=
  let n := (pad m).length / 16
  commitSubkeys key ++
    [ .memWrite .msgout 0 (encryptMessage key m),
      .outlen (pad m).length,
      .blockRegs (encryptRegs (blockAt (pad m) (n - 1)) (keySchedule key)),
      .blockIndex n ]

/-- `exec_ENCM` (R199). -/
def encmResult (s : State) : CmdResult :=
  checked [keyCheck s, encLengthCheck s] { outcome := none, updates := encmUpdates (keyBytes s) (msgBytes s) }

/-- ENCM (R199, R113). -/
def execEncm (s : State) : Host.Outcome State Fault Refusal := complete s (encmResult s)

/-- The updates of DECM for a key and a ciphertext (R201). -/
def decmUpdates (key ct : List Byte) : List Update :=
  let n := ct.length / 16
  let p := decryptMessage key ct
  commitSubkeys key ++
    [ .memWrite .msgout 0 p,
      .blockRegs (decryptRegs (blockAt ct (n - 1)) (keySchedule key)),
      .blockIndex n ] ++
    depadUpdates ct.length (unpad p)

/-- `exec_DECM` (R201). -/
def decmResult (s : State) : CmdResult :=
  checked [keyCheck s, decLengthCheck s]
    { outcome := depadOutcome (unpad (decryptMessage (keyBytes s) (msgBytes s)))
      updates := decmUpdates (keyBytes s) (msgBytes s) }

/-- DECM (R201, R113). -/
def execDecm (s : State) : Host.Outcome State Fault Refusal := complete s (decmResult s)

end Sys2Proof.Machine
end

