-- ==== Sys2Proof/Machine/Engine.lean ====
section
/-! DEFINITION. The engine's step and one move of any agent (40_command_protocol.md R112, R113). -/

namespace Sys2Proof.Machine

/-- The engine's step (R112): while RUNNING, the completion of the latched command; while IDLE it has none, and
nothing changes (log 13). -/
def engineStep (s : State) : Host.Outcome State Fault Refusal :=
  match s.phase with
  | .idle => .next s
  | .running => exec (decode s.opw) s

/-- One move (00_scope.md R5, 70_reset_and_hazards.md R250). -/
def move (e : Event) (s : State) : Host.Outcome State Fault Refusal :=
  match e with
  | .hostRead addr => .next (hostRead s addr)
  | .hostWrite addr data => .next (hostWrite s addr data)
  | .engine => engineStep s
  | .reset => .next (assertReset s)

/-- The next move of the list, which is then used up. When none is left the engine takes its step, so a running
command is eventually completed (70_reset_and_hazards.md R265, log 1). -/
def nextMove (s : State) : Host.Outcome State Fault Refusal :=
  match s.inputs with
  | [] => engineStep s
  | e :: rest => move e { s with inputs := rest }

/-- Accept a command word and let the engine move next (log 11). -/
def issueNext (s : State) (w : Word) : State :=
  { accept s w with inputs := .engine :: s.inputs }

end Sys2Proof.Machine
end

