-- ==== Sys2Proof/Machine/Step.lean ====
section
/-! DEFINITION. One step of the machine: one move of the host, the engine or the reset input (00_scope.md R5). -/

namespace Sys2Proof.Machine

/-- One step: the next move. -/
def step (s : State) : Host.Outcome State Fault Refusal := nextMove s

/-- RC6CORE fetches nothing (10_state.md R40): a command runs when the engine completes it. So this is the state with
the command word accepted (40_command_protocol.md R110) and the engine's move first, and the very next step runs it
(log 11). The bits above `nbits` are 0. -/
def State.withFetchWord (s : State) (nbits w : Nat) : State :=
  issueNext s (BitVec.ofNat 32 (w % 2 ^ nbits))

end Sys2Proof.Machine
end

