-- ==== Sys2Proof/Safety.lean ====
section
/-! DEFINITION. What the statements mean by a good state, and by what a command leaves unchanged. -/

namespace Sys2Proof.Machine

/-- The invariants of STATUS (10_state.md R25), and the codes 7 to 15 that RC6CORE never writes (60_exceptions.md
R220). -/
structure StatusInv (st : Status) : Prop where
  busyClear : st.busy = true → st.done = false ∧ st.err = false ∧ st.padwarn = false ∧ st.errcode = 0
  errCoded : st.err = true → st.errcode ≠ 0
  okUncoded : st.err = false → st.errcode = 0
  codeRange : st.errcode.toNat ≤ 6

/-- PHASE is IDLE exactly when BUSY = 0 (10_state.md R40). -/
def PhaseInv (s : State) : Prop := s.phase = .idle ↔ s.status.busy = false

/-- Memory has its canonical form, and lists no address outside the buffers' windows (20_memory.md R66). -/
def MemInv (m : Memory) : Prop := Memory.wf m = true ∧ ∀ cell ∈ m, isBufferAddr cell.1 = true

/-- While KEYV = 1 the SUBKEY buffer holds an array that a key schedule wrote: no byte of it is an unwritten one
(10_state.md R33, 70_reset_and_hazards.md R251). -/
def SubkeyInv (s : State) : Prop :=
  s.status.keyv = true → ∀ a, inWindow .subkey a = true → (Memory.lookup s.mem a).isSome = true

/-- The invariant every step keeps. OUTLEN never exceeds the output buffer (44_message_framer.md R192, R195). -/
structure State.Inv (s : State) : Prop where
  status : StatusInv s.status
  phase : PhaseInv s
  mem : MemInv s.mem
  subkey : SubkeyInv s
  outlen : s.outlen.toNat ≤ Config.bufBytes

/-- Every byte of memory reads as before, but for the `n` bytes from address `lo`. -/
def SameBytesOutside (s t : State) (lo n : Nat) : Prop :=
  ∀ a, ¬ (lo ≤ a ∧ a < lo + n) → readByte t a = readByte s a

/-- Every byte of memory reads as before. -/
def SameBytes (s t : State) : Prop := ∀ a, readByte t a = readByte s a

/-- The state a failed check leaves (60_exceptions.md R224): it differs only in STATUS, where BUSY = 0, DONE = 1,
ERR = 1 and ERRCODE is the code, and the engine is idle again. -/
def failedWith (s : State) (code : BitVec 4) : State :=
  { s with
    status := { s.status with busy := false, done := true, err := true, errcode := code }
    phase := .idle }

/-- A buffer holds the words `ws` from its base on, in the byte order of 20_memory.md R63. -/
def HoldsWords (s : State) (b : Buffer) (ws : List Word) : Prop :=
  ∀ i, i < ws.length → windowWord s b (4 * i) = ws.getD i 0

/-- A host access: a bus read or a bus write. -/
def Event.isHostAccess : Event → Bool
  | .hostRead _ => true
  | .hostWrite _ _ => true
  | .engine => false
  | .reset => false

end Sys2Proof.Machine
end

