-- ==== Sys2Proof/Certificates/Slice0/Obligations.lean ====
section
/-! DEFINITION. What is stated about the machine, in the order of the spec's files. Nothing here is proved. -/

open Sys2Proof Sys2Proof.Machine

/-! ### Reset and state (10_state.md, 70_reset_and_hazards.md) -/

/-- R43, R250: what reset leaves, from any state: every register at its reset value, PHASE idle, no buffer byte that
anything was written to, so every buffer byte holds any value. The claim leaves out the internal registers and OPW,
whose value after reset is the model's choice (log 5). -/
def Obligations.ResetPutsEveryRegisterAtItsResetValue : Prop :=
  ∀ s : State, ∃ t, move .reset s = .next t ∧ statusWord t.status = 0 ∧ irqenWord t.irqen = 0 ∧
    t.keylen = 0 ∧ t.msglen = 0 ∧ t.outlen = 0 ∧ t.marker = 0 ∧ t.phase = .idle ∧ irq t = false ∧
    (∀ a, Memory.lookup t.mem a = none) ∧ (busRead t 0x0000).1 = 0x52433614 ∧ (busRead t 0x0004).1 = 0x402C1000 ∧
    State.reset.status = t.status ∧ State.reset.irqen = t.irqen ∧ State.reset.keylen = t.keylen ∧
    State.reset.msglen = t.msglen ∧ State.reset.outlen = t.outlen ∧ State.reset.marker = t.marker ∧
    State.reset.mem = t.mem ∧ State.reset.phase = t.phase

/-- R25 gives each field of STATUS its bits, and the reserved bits read 0. -/
def Obligations.StatusWordPlacesEveryField : Prop :=
  ∀ st : Status,
    (statusWord st).getLsbD 0 = st.busy ∧ (statusWord st).getLsbD 1 = st.done ∧ (statusWord st).getLsbD 2 = st.err ∧
    (statusWord st).getLsbD 3 = st.keyv ∧ (statusWord st).getLsbD 4 = st.padwarn ∧
    (statusWord st).extractLsb' 8 4 = st.errcode ∧ (statusWord st).extractLsb' 5 3 = 0 ∧
    (statusWord st).extractLsb' 12 20 = 0

/-- R26: a host write to STATUS, at any time, and that it has no effect while BUSY = 1. -/
def Obligations.StatusWriteClearsTheBitsWritten : Prop :=
  ∀ (s : State) (v : Word),
    busWrite s 0x000C v =
      ({ s with
          status :=
            { busy := s.status.busy
              done := if v.getLsbD 1 then false else s.status.done
              err := if v.getLsbD 2 then false else s.status.err
              keyv := s.status.keyv
              padwarn := if v.getLsbD 4 then false else s.status.padwarn
              errcode := if v.getLsbD 2 then 0 else s.status.errcode } }, false) ∧
    (s.Inv → s.status.busy = true → busWrite s 0x000C v = (s, false))

/-- R27: IRQEN keeps its two enables, at any time, and its reserved bits read 0. -/
def Obligations.IrqEnablesAreReadBack : Prop :=
  ∀ (s : State) (v : Word),
    busWrite s 0x0010 v = ({ s with irqen := { doneIe := v.getLsbD 0, errIe := v.getLsbD 1 } }, false) ∧
    busRead (busWrite s 0x0010 v).1 0x0010 = (v &&& 0x3, false) ∧
    State.reset.irqen = { doneIe := false, errIe := false }

/-- R28, R29: a write to KEYLEN or MSGLEN while BUSY = 0 keeps the low 9 or 13 bits, which read back unchanged, and a
write while BUSY = 1 is refused. -/
def Obligations.LengthRegistersAreReadBack : Prop :=
  ∀ (s : State) (v : Word),
    (s.status.busy = false →
      busWrite s 0x0014 v = ({ s with keylen := v.setWidth 9 }, false) ∧
      busRead (busWrite s 0x0014 v).1 0x0014 = (v &&& 0x1FF, false) ∧
      busWrite s 0x0018 v = ({ s with msglen := v.setWidth 13 }, false) ∧
      busRead (busWrite s 0x0018 v).1 0x0018 = (v &&& 0x1FFF, false)) ∧
    (s.status.busy = true → busWrite s 0x0014 v = (s, true) ∧ busWrite s 0x0018 v = (s, true))

/-- The state after reset meets the invariant of every step. -/
def Obligations.ResetMeetsTheInvariant : Prop := State.reset.Inv

/-- The invariants of STATUS, of PHASE, of memory's form, of SUBKEY and of OUTLEN are kept by every step, whoever
makes the move. -/
def Obligations.EveryStepKeepsTheInvariant : Prop := ∀ s t : State, s.Inv → step s = .next t → t.Inv

/-! ### The bus (20_memory.md) -/

/-- R64: a misaligned access returns a bus error and has no effect. -/
def Obligations.MisalignedAccessesAreRefused : Prop :=
  ∀ (s : State) (a : Addr) (v : Word), a.toNat % 4 ≠ 0 → busRead s a = (0, true) ∧ busWrite s a v = (s, true)

/-- R67: the unmapped ranges, every access to them refused, and no other aligned address unmapped. -/
def Obligations.UnmappedAccessesAreRefused : Prop :=
  ∀ (s : State) (a : Addr) (v : Word),
    if (0x0024 ≤ a.toNat ∧ a.toNat ≤ 0x00FF) ∨ (0x02B0 ≤ a.toNat ∧ a.toNat ≤ 0x02FF) ∨
        (0x0320 ≤ a.toNat ∧ a.toNat ≤ 0x0FFF) ∨ 0x3000 ≤ a.toNat then
      busRead s a = (0, true) ∧ busWrite s a v = (s, true)
    else a.toNat % 4 = 0 → (busRead s a).2 = false

/-- R68: a write to ID, PARAM, OUTLEN, MARKER or the SUBKEY, BLKOUT or MSGOUT window. -/
def Obligations.ReadOnlyLocationsRefuseWrites : Prop :=
  ∀ (s : State) (a : Addr) (v : Word),
    a = 0x0000 ∨ a = 0x0004 ∨ a = 0x001C ∨ a = 0x0020 ∨ (0x0200 ≤ a.toNat ∧ a.toNat ≤ 0x02AF) ∨
      (0x0310 ≤ a.toNat ∧ a.toNat ≤ 0x031F) ∨ (0x2000 ≤ a.toNat ∧ a.toNat ≤ 0x2FFF) →
    busWrite s a v = (s, true)

/-- R69, with BUSY = 0 (while BUSY = 1 the order of R61 answers any value, log 19): SUBKEY reads 0 while KEYV = 0, and
S[i] at 0x0200 + 4i while KEYV = 1. -/
def Obligations.SubkeyReadsAreGatedByKeyValid : Prop :=
  ∀ (s : State) (i : Nat), i < 44 → s.status.busy = false →
    busRead s (BitVec.ofNat 16 (0x0200 + 4 * i)) =
      (if s.status.keyv then (subkeys s).getD i 0 else 0, false)

/-- R71 and R61: while BUSY = 1 a read of an engine-written location returns a free word with no bus error, and a read of
any other location returns its current value; CMD reads 0 (R61). Two clauses are the model's: the form of the free word,
one word for each draw, is its choice (log 4), and that SUBKEY reads as a free word also while KEYV = 0 is deduced from
the order of R61, where R69 alone gives 0 (log 19). -/
def Obligations.BusyReadsOfResultsAreFree : Prop :=
  ∀ (s : State) (a : Addr), s.status.busy = true → a.toNat % 4 = 0 →
    (a = 0x001C ∨ a = 0x0020 ∨ (0x0200 ≤ a.toNat ∧ a.toNat ≤ 0x02AF) ∨ (0x0310 ≤ a.toNat ∧ a.toNat ≤ 0x031F) ∨
        (0x2000 ≤ a.toNat ∧ a.toNat ≤ 0x2FFF) →
      busRead s a = (Config.anyWord s.draws 0, false) ∧ (hostRead s a).draws = s.draws + 1) ∧
    (a = 0x0000 → busRead s a = (0x52433614, false)) ∧
    (a = 0x0004 → busRead s a = (0x402C1000, false)) ∧
    (a = 0x0008 → busRead s a = (0, false)) ∧
    (a = 0x000C → busRead s a = (statusWord s.status, false)) ∧
    (a = 0x0010 → busRead s a = (irqenWord s.irqen, false)) ∧
    (a = 0x0014 → busRead s a = (s.keylen.setWidth 32, false)) ∧
    (a = 0x0018 → busRead s a = (s.msglen.setWidth 32, false)) ∧
    ((0x0100 ≤ a.toNat ∧ a.toNat ≤ 0x01FF) ∨ (0x0300 ≤ a.toNat ∧ a.toNat ≤ 0x030F) ∨
        (0x1000 ≤ a.toNat ∧ a.toNat ≤ 0x1FFF) →
      busRead s a =
        (wordOfBytes (readByte s a.toNat) (readByte s (a.toNat + 1)) (readByte s (a.toNat + 2))
          (readByte s (a.toNat + 3)), false))

/-- R61 while BUSY = 0: what a read of each mapped location returns. -/
def Obligations.IdleReadsReturnTheCurrentValue : Prop :=
  ∀ (s : State) (a : Addr), s.status.busy = false → a.toNat % 4 = 0 →
    (a = 0x0000 → busRead s a = (0x52433614, false)) ∧
    (a = 0x0004 → busRead s a = (0x402C1000, false)) ∧
    (a = 0x0008 → busRead s a = (0, false)) ∧
    (a = 0x000C → busRead s a = (statusWord s.status, false)) ∧
    (a = 0x0010 → busRead s a = (irqenWord s.irqen, false)) ∧
    (a = 0x0014 → busRead s a = (s.keylen.setWidth 32, false)) ∧
    (a = 0x0018 → busRead s a = (s.msglen.setWidth 32, false)) ∧
    (a = 0x001C → busRead s a = (s.outlen.setWidth 32, false)) ∧
    (a = 0x0020 → busRead s a = (s.marker.setWidth 32, false)) ∧
    ((0x0100 ≤ a.toNat ∧ a.toNat ≤ 0x01FF) ∨ (0x0300 ≤ a.toNat ∧ a.toNat ≤ 0x031F) ∨
        (0x1000 ≤ a.toNat ∧ a.toNat ≤ 0x2FFF) ∨
        (s.status.keyv = true ∧ 0x0200 ≤ a.toNat ∧ a.toNat ≤ 0x02AF) →
      busRead s a =
        (wordOfBytes (readByte s a.toNat) (readByte s (a.toNat + 1)) (readByte s (a.toNat + 2))
          (readByte s (a.toNat + 3)), false))

/-- R225: an access that returns a bus error changes no state, and a read that does returns 0. -/
def Obligations.BusErrorsChangeNoState : Prop :=
  ∀ (s : State) (a : Addr) (v : Word),
    ((busWrite s a v).2 = true → (busWrite s a v).1 = s) ∧
    ((busRead s a).2 = true → (busRead s a).1 = 0)

/-- R72 and R111: while BUSY = 1 a write of a command input is refused, CMD among them, and STATUS and IRQEN take
writes. -/
def Obligations.BusyEngineRefusesInputWrites : Prop :=
  ∀ (s : State) (a : Addr) (v : Word), s.status.busy = true →
    (a = 0x0008 ∨ a = 0x0014 ∨ a = 0x0018 ∨ (0x0100 ≤ a.toNat ∧ a.toNat ≤ 0x01FF) ∨
        (0x0300 ≤ a.toNat ∧ a.toNat ≤ 0x030F) ∨ (0x1000 ≤ a.toNat ∧ a.toNat ≤ 0x1FFF) →
      busWrite s a v = (s, true)) ∧
    (a = 0x000C ∨ a = 0x0010 → (busWrite s a v).2 = false)

/-- R63: the word at a window address holds four buffer bytes, the first in bits [7:0]; the words of BLKIN are the
block words A, B, C, D; the words of SUBKEY are S. -/
def Obligations.WindowWordsAreLittleEndian : Prop :=
  ∀ s : State,
    (∀ (b : Buffer) (w : Nat),
      (windowWord s b (4 * w)).extractLsb' 0 8 = readByte s (bufBase b + 4 * w) ∧
      (windowWord s b (4 * w)).extractLsb' 8 8 = readByte s (bufBase b + 4 * w + 1) ∧
      (windowWord s b (4 * w)).extractLsb' 16 8 = readByte s (bufBase b + 4 * w + 2) ∧
      (windowWord s b (4 * w)).extractLsb' 24 8 = readByte s (bufBase b + 4 * w + 3)) ∧
    windowWord s .blkin 0 = (loadBlock (blkinBytes s)).a ∧ windowWord s .blkin 4 = (loadBlock (blkinBytes s)).b ∧
    windowWord s .blkin 8 = (loadBlock (blkinBytes s)).c ∧ windowWord s .blkin 12 = (loadBlock (blkinBytes s)).d ∧
    (∀ i, i < 44 → windowWord s .subkey (4 * i) = (subkeys s).getD i 0)

/-- R62, R65 and R74: a word the host writes to KEY, BLKIN or MSGIN while BUSY = 0 reads back, the four bytes lie in
little-endian order at the address, and every other byte and every register is as before. -/
def Obligations.HostWriteToABufferReadsBack : Prop :=
  ∀ (s : State) (a : Addr) (v : Word), s.status.busy = false → a.toNat % 4 = 0 →
    ((0x0100 ≤ a.toNat ∧ a.toNat ≤ 0x01FF) ∨ (0x0300 ≤ a.toNat ∧ a.toNat ≤ 0x030F) ∨
      (0x1000 ≤ a.toNat ∧ a.toNat ≤ 0x1FFF)) →
    ∃ t, busWrite s a v = (t, false) ∧ busRead t a = (v, false) ∧
      readByte t a.toNat = v.extractLsb' 0 8 ∧ readByte t (a.toNat + 1) = v.extractLsb' 8 8 ∧
      readByte t (a.toNat + 2) = v.extractLsb' 16 8 ∧ readByte t (a.toNat + 3) = v.extractLsb' 24 8 ∧
      SameBytesOutside s t a.toNat 4 ∧ t = { s with mem := t.mem }

/-- R61: a host read changes no state of the device: the response and the count of draws are the model's own. -/
def Obligations.HostReadsChangeNoState : Prop :=
  ∀ (s : State) (a : Addr),
    move (.hostRead a) s =
      .next { s with resp := some (.read (busRead s a).1 (busRead s a).2), draws := s.draws + 1 }

/-! ### Encoding (30_encoding.md) -/

/-- R92: the complete map of the OPCODE values. -/
def Obligations.EveryOpcodeValueDecodesToItsRow : Prop :=
  decode 0x00000000 = .nop ∧ decode 0x00000001 = .keysched ∧ decode 0x00000002 = .encb ∧ decode 0x00000003 = .decb ∧
    decode 0x00000004 = .pad ∧ decode 0x00000005 = .unpad ∧ decode 0x00000006 = .encm ∧ decode 0x00000007 = .decm ∧
    ∀ k, k < 8 → decode (BitVec.ofNat 32 (8 + k)) = .illegal (BitVec.ofNat 32 (8 + k))

/-- R93: exactly eight words name a command, and every other word is illegal. -/
def Obligations.DecodeNamesExactlyTheEightWords : Prop :=
  ∀ w : Word,
    decode w =
      if w = 0 then .nop else if w = 1 then .keysched else if w = 2 then .encb else if w = 3 then .decb
      else if w = 4 then .pad else if w = 5 then .unpad else if w = 6 then .encm else if w = 7 then .decm
      else .illegal w

/-- Decoding the bytes of a well-formed command gives it back, with what follows untouched. The order of the bytes is
deduced (log 14), and the encoding of `illegal` is the model's choice (log 20). -/
def Obligations.DecodeOfEncodedBytesIsTheCommand : Prop :=
  ∀ (i : Instr) (rest : List Byte), i.wellFormed = true → decodeBytes (encodeBytes i ++ rest) = .ok (i, rest)

/-- The other direction: every word decodes to a well-formed command that encodes to it, so no bit is dropped. The spec
gives ILLEGAL no encoding: for a word outside the eight this holds by the model's choice that `illegal` carries its
word (log 20). -/
def Obligations.EncodeOfDecodedWordIsTheWord : Prop :=
  ∀ w : Word, (decode w).wellFormed = true ∧ encode (decode w) = w

/-! ### The command protocol (40_command_protocol.md) -/

/-- R110: acceptance, for every word, an illegal one among them. -/
def Obligations.AcceptanceLatchesTheWord : Prop :=
  ∀ (s : State) (w : Word), s.status.busy = false →
    busWrite s 0x0008 w =
      ({ s with
          opw := w
          status :=
            { busy := true, done := false, err := false, keyv := s.status.keyv, padwarn := false, errcode := 0 }
          phase := .running }, false)

/-- R112, R113: when the engine moves while RUNNING, the step is the completion of the command in OPW; while IDLE the
engine has no step. The move of the list is used up. When no move is left the engine takes its step. -/
def Obligations.EngineMoveRunsTheLatchedCommand : Prop :=
  ∀ (s : State) (rest : List Event),
    (s.phase = .running → s.inputs = .engine :: rest → step s = exec (decode s.opw) { s with inputs := rest }) ∧
    (s.phase = .running → s.inputs = [] → step s = exec (decode s.opw) s) ∧
    (s.phase = .idle → s.inputs = .engine :: rest → step s = .next { s with inputs := rest }) ∧
    (s.phase = .idle → s.inputs = [] → step s = .next s)

/-- A command word placed where the engine runs its next command is run by the very next step, from any state: it is
the completion at the state that acceptance leaves. -/
def Obligations.PlacedWordRunsNext : Prop :=
  ∀ (s : State) (w : Word),
    step (s.withFetchWord 32 w.toNat) =
      exec (decode w)
        { s with
          opw := w
          status := { s.status with busy := true, done := false, err := false, padwarn := false, errcode := 0 }
          phase := .running }

/-- R113: every command completes: none hangs, none fails to set DONE. -/
def Obligations.EveryCommandCompletes : Prop :=
  ∀ (i : Instr) (s : State), ∃ t, exec i s = .next t ∧
    t.status.done = true ∧ t.status.busy = false ∧ t.phase = .idle ∧
    (s.status.keyv = true → t.status.keyv = true)

/-- R112, R265: a running command is completed, or abandoned by a reset, at the latest one step after the last move of
the list: from every state, some number of steps reaches an idle engine. -/
def Obligations.EngineBecomesIdleWithinTheMovesLeft : Prop :=
  ∀ s : State, ∃ k t, k ≤ s.inputs.length + 1 ∧ Host.Core.run Sys2Proof.core k s = .next t ∧ t.phase = .idle

/-- R116: NOP completes with no effect but the report, and, with its acceptance, clears a stale report. -/
def Obligations.NopCompletesWithNoEffect : Prop :=
  ∀ s : State,
    exec .nop s =
      .next { s with status := { s.status with busy := false, done := true }, phase := .idle } ∧
    (s.status.busy = false →
      ∃ t, exec (decode 0x00000000) (busWrite s 0x0008 0x00000000).1 = .next t ∧
        t.status = { busy := false, done := true, err := false, keyv := s.status.keyv, padwarn := false, errcode := 0 } ∧
        t.outlen = s.outlen ∧ t.marker = s.marker ∧ SameBytes s t)

/-- R117: every word with RSV nonzero, or with OPCODE in 0x8..0xF, completes with ILLEGAL_COMMAND (code 6), and
nothing but STATUS changes. -/
def Obligations.IllegalWordsReportIllegalCommand : Prop :=
  ∀ (s : State) (w : Word), (w.toNat / 16 ≠ 0 ∨ 8 ≤ w.toNat % 16) →
    decode w = .illegal w ∧ exec (decode w) s = .next (failedWith s 6)

/-! ### The datapath (41_datapath.md) -/

/-- R130: LE32 as a sum, and the words of a byte sequence. -/
def Obligations.WordCodecIsLittleEndian : Prop :=
  (∀ b0 b1 b2 b3 : Byte,
    (wordOfBytes b0 b1 b2 b3).toNat = b0.toNat + 2 ^ 8 * b1.toNat + 2 ^ 16 * b2.toNat + 2 ^ 24 * b3.toNat) ∧
  (∀ bs : List Byte, bs.length % 4 = 0 →
    (bytesToWords bs).length = bs.length / 4 ∧
    ∀ k, k < bs.length / 4 →
      (bytesToWords bs).getD k 0 =
        wordOfBytes (bs.getD (4 * k) 0) (bs.getD (4 * k + 1) 0) (bs.getD (4 * k + 2) 0) (bs.getD (4 * k + 3) 0)) ∧
  bytesToWords [] = [] ∧ wordOfBytes 0x73 0x75 0x63 0x68 = 0x68637573

/-- R132, R133: where a rotation by any natural number moves every bit, with the laws the spec derives from the two
rules and their examples. -/
def Obligations.RotationsMoveEveryBit : Prop :=
  ∀ (x : Word) (n i : Nat), i < 32 →
    (rotl x n).getLsbD ((i + n) % 32) = x.getLsbD i ∧ (rotr x n).getLsbD i = x.getLsbD ((i + n) % 32) ∧
    rotl x n = rotl x (n % 32) ∧ rotr x n = rotr x (n % 32) ∧ rotl x 0 = x ∧ rotr x 0 = x ∧ rotl x 32 = x ∧
    rotl x 36 = rotl x 4 ∧ rotl x 31 = rotr x 1 ∧ rotr x n = rotl x (32 - n % 32) ∧
    rotr (rotl x n) n = x ∧ rotl (rotr x n) n = x ∧
    rotl 0x80000001 1 = 0x00000003 ∧ rotl 0x12345678 4 = 0x23456781 ∧ rotr 0x00000003 1 = 0x80000001 ∧
    rotr 0x12345678 4 = 0x81234567

/-- R139: the round function, as one exact product reduced once and as the rule writes it, with the corner cases that
the rule's table derives. -/
def Obligations.RoundFunctionIsTheRotatedProduct : Prop :=
  (∀ x : Word, f x = rotl (BitVec.ofNat 32 (x.toNat * (2 * x.toNat + 1))) 5 ∧
    f x = rotl (mul32 x (add32 (add32 x x) 1)) 5) ∧
  f 0x00000000 = 0x00000000 ∧ f 0x00000001 = 0x00000060 ∧ f 0x00000002 = 0x00000140 ∧ f 0x7FFFFFFF = 0x00000030 ∧
  f 0x80000000 = 0x00000010 ∧ f 0xFFFFFFFF = 0x00000020 ∧ f 0x12345678 = 0xC3C0DF09

/-! ### The key schedule (42_key_schedule.md) -/

/-- R153: subkey initialisation. -/
def Obligations.SubkeyInitialisationFollowsTheRecurrence : Prop :=
  initialSubkeys.length = 44 ∧ initialSubkeys.getD 0 0 = 0xB7E15163 ∧
    ∀ i, i < 43 → initialSubkeys.getD (i + 1) 0 = initialSubkeys.getD i 0 + 0x9E3779B9

/-- R154: one mixing iteration, in the order the rule fixes, and the whole loop: V iterations from KA = KB = i = j = 0
over the initial subkeys and the key's words. -/
def Obligations.MixingLoopFollowsTheRule : Prop :=
  (∀ (c : Nat) (m : MixRegs), m.i < m.s.length → m.j < m.l.length →
    (mixIter c m).ka = rotl (m.s.getD m.i 0 + m.ka + m.kb) 3 ∧
    (mixIter c m).kb =
      rotl (m.l.getD m.j 0 + (mixIter c m).ka + m.kb) (((mixIter c m).ka + m.kb).toNat % 32) ∧
    (∀ n, (mixIter c m).s.getD n 0 = if n = m.i then (mixIter c m).ka else m.s.getD n 0) ∧
    (∀ n, (mixIter c m).l.getD n 0 = if n = m.j then (mixIter c m).kb else m.l.getD n 0) ∧
    (mixIter c m).i = (m.i + 1) % 44 ∧ (mixIter c m).j = (m.j + 1) % c) ∧
  ∀ key : List Byte,
    keySchedule key =
      ((mixIter (keyWords key))^[3 * max (keyWords key) 44]
        { s := initialSubkeys, l := bytesToWords (padKey key), ka := 0, kb := 0, i := 0, j := 0 }).s

/-- R158, equivalent keys: 1 to 3 trailing zero bytes that stay within the last word do not change S. -/
def Obligations.EquivalentKeysGiveEqualSubkeys : Prop :=
  ∀ (key : List Byte) (n : Nat), n ≤ (4 - key.length % 4) % 4 → keySchedule (key ++ zeros n) = keySchedule key

/-- R157: KEYSCHED, with its two errors. With a legal key length SUBKEY holds the schedule of the KLEN bytes of KEY,
KEYV is set, and nothing changes but STATUS, the SUBKEY bytes, and L, KA, KB and the schedule's counters. -/
def Obligations.KeyschedWritesTheSubkeys : Prop :=
  ∀ s : State, decode 0x00000001 = .keysched ∧
    (s.keylen.toNat = 0 → exec .keysched s = .next (failedWith s 1)) ∧
    (256 < s.keylen.toNat → exec .keysched s = .next (failedWith s 4)) ∧
    (1 ≤ s.keylen.toNat → s.keylen.toNat ≤ 256 →
      ∃ t, exec .keysched s = .next t ∧
        (keySchedule (keyBytes s)).length = 44 ∧
        HoldsWords t .subkey (keySchedule (keyBytes s)) ∧
        SameBytesOutside s t (bufBase .subkey) 176 ∧
        t.engine.block = s.engine.block ∧ t.engine.counters.rnd = s.engine.counters.rnd ∧
        t.engine.counters.blk = s.engine.counters.blk ∧ t.engine.counters.scan = s.engine.counters.scan ∧
        t = { s with
              status := { s.status with busy := false, done := true, keyv := true }
              phase := .idle, mem := t.mem, engine := t.engine, draws := t.draws })

/-- R151: the bytes of KEY from KLEN on never matter: two states whose first KLEN key bytes agree get the same
subkeys, whatever their earlier SUBKEY contents were (R150). -/
def Obligations.KeyschedReadsOnlyTheKeyBytes : Prop :=
  ∀ s s' t t' : State, 1 ≤ s.keylen.toNat → s.keylen.toNat ≤ 256 → s'.keylen = s.keylen →
    (∀ i, i < s.keylen.toNat → readByte s' (0x0100 + i) = readByte s (0x0100 + i)) →
    exec .keysched s = .next t → exec .keysched s' = .next t' → subkeys t' = subkeys t

/-! ### The block transform (43_block_transform.md) -/

/-- R176: decryption undoes encryption and encryption undoes decryption, for every 16-byte block and every S. -/
def Obligations.BlockTransformsAreInverse : Prop :=
  ∀ (b : List Byte) (S : List Word), b.length = 16 →
    decryptBlock (encryptBlock b S) S = b ∧ encryptBlock (decryptBlock b S) S = b

/-- R173: one encryption round: tt and uu from the B and D it starts with, the new A and C, and the role rotation. -/
def Obligations.EncryptionRoundFollowsTheRule : Prop :=
  ∀ (S : List Word) (r : BlockRegs) (i : Nat), 1 ≤ i → i ≤ 20 →
    (encRound S r i).tt = f r.b ∧ (encRound S r i).uu = f r.d ∧
    (encRound S r i).a = r.b ∧
    (encRound S r i).b = rotl (r.c ^^^ f r.d) ((f r.b).toNat % 32) + S.getD (2 * i + 1) 0 ∧
    (encRound S r i).c = r.d ∧
    (encRound S r i).d = rotl (r.a ^^^ f r.b) ((f r.d).toNat % 32) + S.getD (2 * i) 0

/-- R175: one decryption round: the inverse role rotation first, then C and A from the B and D it gives. -/
def Obligations.DecryptionRoundFollowsTheRule : Prop :=
  ∀ (S : List Word) (r : BlockRegs) (i : Nat), 1 ≤ i → i ≤ 20 →
    (decRound S r i).uu = f r.c ∧ (decRound S r i).tt = f r.a ∧
    (decRound S r i).a = (rotr (r.d - S.getD (2 * i) 0) ((f r.c).toNat % 32) ^^^ f r.a) ∧
    (decRound S r i).b = r.a ∧
    (decRound S r i).c = (rotr (r.b - S.getD (2 * i + 1) 0) ((f r.a).toNat % 32) ^^^ f r.c) ∧
    (decRound S r i).d = r.c

/-- R172, R174: a block transform around its rounds. Encryption adds S[0] and S[1] to B and D, runs the rounds 1 to 20
in order, and adds S[42] and S[43] to A and C; decryption undoes them in the opposite order. -/
def Obligations.BlockTransformsRunTheirSteps : Prop :=
  ∀ (a b c d : Word) (S : List Word),
    (∃ e : BlockRegs,
      e = (List.range' 1 20).foldl (encRound S)
        { a := a, b := b + S.getD 0 0, c := c, d := d + S.getD 1 0, tt := 0, uu := 0 } ∧
      encryptBlock (wordsToBytes [a, b, c, d]) S =
        wordsToBytes [e.a + S.getD 42 0, e.b, e.c + S.getD 43 0, e.d]) ∧
    (∃ e : BlockRegs,
      e = (List.range' 1 20).reverse.foldl (decRound S)
        { a := a - S.getD 42 0, b := b, c := c - S.getD 43 0, d := d, tt := 0, uu := 0 } ∧
      decryptBlock (wordsToBytes [a, b, c, d]) S =
        wordsToBytes [e.a, e.b - S.getD 0 0, e.c, e.d - S.getD 1 0])

/-- R177: ENCB with valid subkeys, and without. What a block transform leaves in the block registers is not claimed
(log 7). -/
def Obligations.EncbEncryptsTheInputBlock : Prop :=
  ∀ s : State, decode 0x00000002 = .encb ∧
    (s.status.keyv = false → exec .encb s = .next (failedWith s 3)) ∧
    (s.status.keyv = true →
      ∃ t, exec .encb s = .next t ∧
        memRead t .blkout 0 16 = encryptBlock (blkinBytes s) (subkeys s) ∧
        SameBytesOutside s t (bufBase .blkout) 16 ∧
        t = { s with
              status := { s.status with busy := false, done := true }
              phase := .idle, mem := t.mem, draws := t.draws
              engine :=
                { s.engine with
                  block := t.engine.block
                  counters := { s.engine.counters with rnd := t.engine.counters.rnd } } })

/-- R178: DECB with valid subkeys, and without. -/
def Obligations.DecbDecryptsTheInputBlock : Prop :=
  ∀ s : State, decode 0x00000003 = .decb ∧
    (s.status.keyv = false → exec .decb s = .next (failedWith s 3)) ∧
    (s.status.keyv = true →
      ∃ t, exec .decb s = .next t ∧
        memRead t .blkout 0 16 = decryptBlock (blkinBytes s) (subkeys s) ∧
        SameBytesOutside s t (bufBase .blkout) 16 ∧
        t = { s with
              status := { s.status with busy := false, done := true }
              phase := .idle, mem := t.mem, draws := t.draws
              engine :=
                { s.engine with
                  block := t.engine.block
                  counters := { s.engine.counters with rnd := t.engine.counters.rnd } } })

/-- R178: the output block of an ENCB, copied to BLKIN and decrypted under the same S, is the original block. -/
def Obligations.DecbRecoversWhatEncbEncrypted : Prop :=
  ∀ s t u v : State, s.status.keyv = true → exec .encb s = .next t → u.status.keyv = true → subkeys u = subkeys s →
    blkinBytes u = memRead t .blkout 0 16 → exec .decb u = .next v →
    memRead v .blkout 0 16 = blkinBytes s

/-! ### The message framer (44_message_framer.md) -/

/-- R194: the depadder removes the last nonzero byte, whatever its value and however far back it lies, and finds
nothing exactly when every byte is zero. -/
def Obligations.UnpadFindsTheLastNonzeroByte : Prop :=
  ∀ p : List Byte,
    (∀ k mk, unpad p = .found k mk ↔
      k < p.length ∧ p.getD k 0 = mk ∧ mk ≠ 0 ∧ ∀ j, k < j → j < p.length → p.getD j 0 = 0) ∧
    (unpad p = .notFound ↔ ∀ j, j < p.length → p.getD j 0 = 0)

/-- R198: depadding undoes padding, and no warning is due. -/
def Obligations.UnpadUndoesPad : Prop :=
  ∀ m : List Byte, unpad (pad m) = .found m.length 0x80 ∧ padwarnOf (pad m).length m.length 0x80 = false

/-- R193: PAD with a message that fits, and with one that does not. -/
def Obligations.PadWritesThePaddedMessage : Prop :=
  ∀ s : State, decode 0x00000004 = .pad ∧
    (4095 < s.msglen.toNat → exec .pad s = .next (failedWith s 4)) ∧
    (s.msglen.toNat ≤ 4095 →
      ∃ t n, exec .pad s = .next t ∧ n = s.msglen.toNat + (16 - s.msglen.toNat % 16) ∧ t.outlen.toNat = n ∧
        memRead t .msgout 0 n =
          msgBytes s ++ 0x80 :: zeros (16 - s.msglen.toNat % 16 - 1) ∧
        SameBytesOutside s t (bufBase .msgout) n ∧
        t = { s with
              status := { s.status with busy := false, done := true }
              phase := .idle, mem := t.mem, outlen := t.outlen })

/-- R197, with R195 and R196 for it: UNPAD, with its two check errors. The last nonzero byte of the input is the
marker; PADWARN says whether it is not 0x80 or more than 16 bytes are removed; all bytes zero ends with
PADDING_NOT_FOUND, its other writes committed. -/
def Obligations.UnpadReportsMarkerAndLength : Prop :=
  ∀ s : State, decode 0x00000005 = .unpad ∧
    (s.msglen.toNat = 0 ∨ s.msglen.toNat % 16 ≠ 0 → exec .unpad s = .next (failedWith s 2)) ∧
    (s.msglen.toNat % 16 = 0 → 4096 < s.msglen.toNat → exec .unpad s = .next (failedWith s 4)) ∧
    (s.msglen.toNat ≠ 0 → s.msglen.toNat % 16 = 0 → s.msglen.toNat ≤ 4096 →
      ∃ t, exec .unpad s = .next t ∧
        memRead t .msgout 0 s.msglen.toNat = msgBytes s ∧
        SameBytesOutside s t (bufBase .msgout) s.msglen.toNat ∧
        (∀ k, k < s.msglen.toNat → readByte s (0x1000 + k) ≠ 0 →
          (∀ j, k < j → j < s.msglen.toNat → readByte s (0x1000 + j) = 0) →
          t.outlen.toNat = k ∧ t.marker = readByte s (0x1000 + k) ∧
          t.status =
            { s.status with
              busy := false, done := true
              padwarn := decide (readByte s (0x1000 + k) ≠ 0x80 ∨ s.msglen.toNat - k > 16) }) ∧
        ((∀ k, k < s.msglen.toNat → readByte s (0x1000 + k) = 0) →
          t.outlen = 0 ∧ t.marker = 0 ∧
          t.status = { s.status with busy := false, done := true, err := true, errcode := 5 }) ∧
        t = { s with
              status := t.status, phase := .idle, mem := t.mem, outlen := t.outlen, marker := t.marker
              draws := t.draws
              engine :=
                { s.engine with counters := { s.engine.counters with scan := t.engine.counters.scan } } })

/-- R199: ENCM, with its errors. With legal lengths every block of the padded message is encrypted under the schedule
of the key. -/
def Obligations.EncmEncryptsTheMessage : Prop :=
  ∀ s : State, decode 0x00000006 = .encm ∧
    (s.keylen.toNat = 0 → exec .encm s = .next (failedWith s 1)) ∧
    (256 < s.keylen.toNat → exec .encm s = .next (failedWith s 4)) ∧
    (1 ≤ s.keylen.toNat → s.keylen.toNat ≤ 256 → 4095 < s.msglen.toNat → exec .encm s = .next (failedWith s 4)) ∧
    (1 ≤ s.keylen.toNat → s.keylen.toNat ≤ 256 → s.msglen.toNat ≤ 4095 →
      ∃ t n, exec .encm s = .next t ∧ n = s.msglen.toNat / 16 + 1 ∧ t.outlen.toNat = 16 * n ∧
        HoldsWords t .subkey (keySchedule (keyBytes s)) ∧
        (∀ k, k < n →
          memRead t .msgout (16 * k) 16 =
            encryptBlock (((pad (msgBytes s)).drop (16 * k)).take 16) (keySchedule (keyBytes s))) ∧
        (∀ a, ¬ (bufBase .msgout ≤ a ∧ a < bufBase .msgout + 16 * n) →
          ¬ (bufBase .subkey ≤ a ∧ a < bufBase .subkey + 176) → readByte t a = readByte s a) ∧
        t.engine.counters.scan = s.engine.counters.scan ∧
        t = { s with
              status := { s.status with busy := false, done := true, keyv := true }
              phase := .idle, mem := t.mem, outlen := t.outlen, engine := t.engine, draws := t.draws })

/-- R201, with R195 and R196 for it: DECM, with its check errors. On lengths that pass the checks every block is
decrypted into MSGOUT, then depadded. KEYV is set also when PADDING_NOT_FOUND follows. -/
def Obligations.DecmDecryptsAndDepads : Prop :=
  ∀ s : State, decode 0x00000007 = .decm ∧
    (s.keylen.toNat = 0 → exec .decm s = .next (failedWith s 1)) ∧
    (256 < s.keylen.toNat → exec .decm s = .next (failedWith s 4)) ∧
    (1 ≤ s.keylen.toNat → s.keylen.toNat ≤ 256 →
      (s.msglen.toNat = 0 ∨ s.msglen.toNat % 16 ≠ 0 → exec .decm s = .next (failedWith s 2)) ∧
      (s.msglen.toNat % 16 = 0 → 4096 < s.msglen.toNat → exec .decm s = .next (failedWith s 4))) ∧
    (1 ≤ s.keylen.toNat → s.keylen.toNat ≤ 256 → s.msglen.toNat ≠ 0 → s.msglen.toNat % 16 = 0 →
      s.msglen.toNat ≤ 4096 →
      ∃ t, exec .decm s = .next t ∧
        HoldsWords t .subkey (keySchedule (keyBytes s)) ∧
        (∀ k, k < s.msglen.toNat / 16 →
          memRead t .msgout (16 * k) 16 =
            decryptBlock (memRead s .msgin (16 * k) 16) (keySchedule (keyBytes s))) ∧
        (∀ a, ¬ (bufBase .msgout ≤ a ∧ a < bufBase .msgout + s.msglen.toNat) →
          ¬ (bufBase .subkey ≤ a ∧ a < bufBase .subkey + 176) → readByte t a = readByte s a) ∧
        (∀ k, k < s.msglen.toNat → readByte t (0x2000 + k) ≠ 0 →
          (∀ j, k < j → j < s.msglen.toNat → readByte t (0x2000 + j) = 0) →
          t.outlen.toNat = k ∧ t.marker = readByte t (0x2000 + k) ∧
          t.status =
            { s.status with
              busy := false, done := true, keyv := true
              padwarn := decide (readByte t (0x2000 + k) ≠ 0x80 ∨ s.msglen.toNat - k > 16) }) ∧
        ((∀ k, k < s.msglen.toNat → readByte t (0x2000 + k) = 0) →
          t.outlen = 0 ∧ t.marker = 0 ∧
          t.status = { s.status with busy := false, done := true, keyv := true, err := true, errcode := 5 }) ∧
        t = { s with
              status := t.status, phase := .idle, mem := t.mem, outlen := t.outlen, marker := t.marker
              engine := t.engine, draws := t.draws })

/-- R202: ENCM of a message, then DECM of its output under the same key, gives the message back, with no error and no
warning. `u` is any later state that holds the key, and the ciphertext with its length, where the host put them, and
whose report acceptance has cleared. -/
def Obligations.DecmRecoversWhatEncmEncrypted : Prop :=
  ∀ s t u : State, 1 ≤ s.keylen.toNat → s.keylen.toNat ≤ 256 → s.msglen.toNat ≤ 4095 →
    exec .encm s = .next t → keyBytes u = keyBytes s → u.msglen = t.outlen →
    memRead u .msgin 0 t.outlen.toNat = memRead t .msgout 0 t.outlen.toNat →
    u.status.err = false →
    ∃ v, exec .decm u = .next v ∧ v.status.err = false ∧ v.status.done = true ∧ v.status.padwarn = false ∧
      v.outlen.toNat = s.msglen.toNat ∧ v.marker = 0x80 ∧
      memRead v .msgout 0 s.msglen.toNat = msgBytes s

/-! ### Errors, interrupt and hazards (60_exceptions.md, 70_reset_and_hazards.md) -/

/-- R221 with the order of R222: the length checks of every command. A command that breaks several reports the first,
and a failed check changes nothing but STATUS (R224). -/
def Obligations.FailedChecksChangeOnlyStatus : Prop :=
  ∀ (s : State) (i : Instr),
    (i = .keysched ∨ i = .encm ∨ i = .decm →
      (s.keylen.toNat = 0 → exec i s = .next (failedWith s 1)) ∧
      (256 < s.keylen.toNat → exec i s = .next (failedWith s 4))) ∧
    (i = .pad ∨ (i = .encm ∧ 1 ≤ s.keylen.toNat ∧ s.keylen.toNat ≤ 256) →
      4095 < s.msglen.toNat → exec i s = .next (failedWith s 4)) ∧
    (i = .unpad ∨ (i = .decm ∧ 1 ≤ s.keylen.toNat ∧ s.keylen.toNat ≤ 256) →
      (s.msglen.toNat = 0 ∨ s.msglen.toNat % 16 ≠ 0 → exec i s = .next (failedWith s 2)) ∧
      (s.msglen.toNat % 16 = 0 → 4096 < s.msglen.toNat → exec i s = .next (failedWith s 4)))

/-- R220: from a state whose report acceptance has cleared, a command ends with a code its row names for it, or with
none, and ERR says which. -/
def Obligations.EachCommandRaisesOnlyItsErrors : Prop :=
  ∀ (i : Instr) (s t : State), s.status.err = false → s.status.errcode = 0 → exec i s = .next t →
    (t.status.err = true ↔ t.status.errcode ≠ 0) ∧
    t.status.errcode ∈
      (match i with
        | .nop => [0]
        | .keysched => [0, 1, 4]
        | .encb => [0, 3]
        | .decb => [0, 3]
        | .pad => [0, 4]
        | .unpad => [0, 2, 4, 5]
        | .encm => [0, 1, 4]
        | .decm => [0, 1, 2, 4, 5]
        | .illegal _ => [6] : List (BitVec 4))

/-- R230: the interrupt line, and that clearing the status bits of its sources, by a write or by the next acceptance,
or their enables, ends it. -/
def Obligations.IrqIsALevelOfStatusAndEnables : Prop :=
  ∀ s : State,
    (irq s = true ↔
      (s.status.done = true ∧ s.irqen.doneIe = true) ∨ (s.status.err = true ∧ s.irqen.errIe = true)) ∧
    irq (busWrite s 0x000C 0x00000006).1 = false ∧ irq (busWrite s 0x0010 0x00000000).1 = false ∧
    (s.status.busy = false → ∀ w, irq (busWrite s 0x0008 w).1 = false)

/-- R156, R25: KEYV is set only by a completed key schedule and cleared only by reset. -/
def Obligations.KeyValidIsSetOnlyByKeySchedules : Prop :=
  ∀ (s t : State) (e : Event), move e s = .next t →
    (s.status.keyv = true → t.status.keyv = false → e = .reset) ∧
    (s.status.keyv = false → t.status.keyv = true →
      e = .engine ∧ s.phase = .running ∧
        (decode s.opw = .keysched ∨ decode s.opw = .encm ∨ decode s.opw = .decm))

/-- R156, R33: the SUBKEY bytes change only when a KEYSCHED, ENCM or DECM completes, or at a reset; no host access
changes them. -/
def Obligations.SubkeysChangeOnlyByKeySchedules : Prop :=
  ∀ (s t : State) (e : Event) (a : Nat), move e s = .next t → inWindow .subkey a = true →
    readByte t a ≠ readByte s a →
    e = .reset ∨ (e = .engine ∧ s.phase = .running ∧
      (decode s.opw = .keysched ∨ decode s.opw = .encm ∨ decode s.opw = .decm))

/-- R32, R71: no command writes KEY, BLKIN or MSGIN, nor the registers the host writes. -/
def Obligations.EngineNeverWritesItsInputs : Prop :=
  ∀ (i : Instr) (s t : State), exec i s = .next t →
    (∀ a, inWindow .key a = true ∨ inWindow .blkin a = true ∨ inWindow .msgin a = true →
      readByte t a = readByte s a) ∧
    t.keylen = s.keylen ∧ t.msglen = s.msglen ∧ t.irqen = s.irqen ∧ t.opw = s.opw ∧ t.inputs = s.inputs ∧
    t.resp = s.resp ∧ t.resets = s.resets

/-- R76, R113, R114: the host accesses made while a command runs do not change its results: with any list of reads and
writes before the engine's step, the completion leaves the same memory, STATUS, OUTLEN, MARKER and lengths as the
completion taken at once. The list of moves is the model's form of the order in which the agents move (log 1). -/
def Obligations.HostAccessesDoNotChangeTheResult : Prop :=
  ∀ (s t u : State) (es : List Event), s.Inv → s.status.busy = true → es.all Event.isHostAccess = true →
    s.inputs = es ++ [.engine] → Host.Core.run Sys2Proof.core (es.length + 1) s = .next t →
    exec (decode s.opw) { s with inputs := [] } = .next u →
    t.mem = u.mem ∧ t.status = u.status ∧ t.outlen = u.outlen ∧ t.marker = u.marker ∧ t.keylen = u.keylen ∧
      t.msglen = u.msglen ∧ t.opw = u.opw ∧ t.phase = u.phase ∧ t.inputs = []

/-- R236: in a state that meets the invariant, an engine that is not BUSY keeps every piece of state when it is given
the move. -/
def Obligations.IdleEngineKeepsEveryState : Prop :=
  ∀ s : State, s.Inv → s.status.busy = false → engineStep s = .next s
end

