-- ==== Sys2Proof/Laws/State.lean ====
section
/-! SUPPORT. What each named update of State leaves in each field: one lemma per field per update, each by rfl. -/

namespace Sys2Proof.Machine

/-! `accept` -/

@[simp] theorem accept_status (s : State) (w : Word) : (accept s w).status = acceptStatus s.status := rfl
@[simp] theorem accept_irqen (s : State) (w : Word) : (accept s w).irqen = s.irqen := rfl
@[simp] theorem accept_keylen (s : State) (w : Word) : (accept s w).keylen = s.keylen := rfl
@[simp] theorem accept_msglen (s : State) (w : Word) : (accept s w).msglen = s.msglen := rfl
@[simp] theorem accept_outlen (s : State) (w : Word) : (accept s w).outlen = s.outlen := rfl
@[simp] theorem accept_marker (s : State) (w : Word) : (accept s w).marker = s.marker := rfl
@[simp] theorem accept_mem (s : State) (w : Word) : (accept s w).mem = s.mem := rfl
@[simp] theorem accept_engine (s : State) (w : Word) : (accept s w).engine = s.engine := rfl
@[simp] theorem accept_opw (s : State) (w : Word) : (accept s w).opw = w := rfl
@[simp] theorem accept_phase (s : State) (w : Word) : (accept s w).phase = Phase.running := rfl
@[simp] theorem accept_inputs (s : State) (w : Word) : (accept s w).inputs = s.inputs := rfl
@[simp] theorem accept_resp (s : State) (w : Word) : (accept s w).resp = s.resp := rfl
@[simp] theorem accept_draws (s : State) (w : Word) : (accept s w).draws = s.draws := rfl
@[simp] theorem accept_resets (s : State) (w : Word) : (accept s w).resets = s.resets := rfl

/-! `finish` -/

@[simp] theorem finish_status (s : State) (o : Option ErrorCode) :
    (finish s o).status = completeStatus s.status o := rfl
@[simp] theorem finish_irqen (s : State) (o : Option ErrorCode) : (finish s o).irqen = s.irqen := rfl
@[simp] theorem finish_keylen (s : State) (o : Option ErrorCode) : (finish s o).keylen = s.keylen := rfl
@[simp] theorem finish_msglen (s : State) (o : Option ErrorCode) : (finish s o).msglen = s.msglen := rfl
@[simp] theorem finish_outlen (s : State) (o : Option ErrorCode) : (finish s o).outlen = s.outlen := rfl
@[simp] theorem finish_marker (s : State) (o : Option ErrorCode) : (finish s o).marker = s.marker := rfl
@[simp] theorem finish_mem (s : State) (o : Option ErrorCode) : (finish s o).mem = s.mem := rfl
@[simp] theorem finish_engine (s : State) (o : Option ErrorCode) : (finish s o).engine = s.engine := rfl
@[simp] theorem finish_opw (s : State) (o : Option ErrorCode) : (finish s o).opw = s.opw := rfl
@[simp] theorem finish_phase (s : State) (o : Option ErrorCode) : (finish s o).phase = Phase.idle := rfl
@[simp] theorem finish_inputs (s : State) (o : Option ErrorCode) : (finish s o).inputs = s.inputs := rfl
@[simp] theorem finish_resp (s : State) (o : Option ErrorCode) : (finish s o).resp = s.resp := rfl
@[simp] theorem finish_draws (s : State) (o : Option ErrorCode) : (finish s o).draws = s.draws := rfl
@[simp] theorem finish_resets (s : State) (o : Option ErrorCode) : (finish s o).resets = s.resets := rfl

/-! `memWrite` -/

@[simp] theorem memWrite_status (s : State) (b : Buffer) (k : Nat) (v : List Byte) :
    (memWrite s b k v).status = s.status := rfl
@[simp] theorem memWrite_irqen (s : State) (b : Buffer) (k : Nat) (v : List Byte) :
    (memWrite s b k v).irqen = s.irqen := rfl
@[simp] theorem memWrite_keylen (s : State) (b : Buffer) (k : Nat) (v : List Byte) :
    (memWrite s b k v).keylen = s.keylen := rfl
@[simp] theorem memWrite_msglen (s : State) (b : Buffer) (k : Nat) (v : List Byte) :
    (memWrite s b k v).msglen = s.msglen := rfl
@[simp] theorem memWrite_outlen (s : State) (b : Buffer) (k : Nat) (v : List Byte) :
    (memWrite s b k v).outlen = s.outlen := rfl
@[simp] theorem memWrite_marker (s : State) (b : Buffer) (k : Nat) (v : List Byte) :
    (memWrite s b k v).marker = s.marker := rfl
@[simp] theorem memWrite_mem (s : State) (b : Buffer) (k : Nat) (v : List Byte) :
    (memWrite s b k v).mem = Memory.storeBytes s.mem (bufBase b + k) v := rfl
@[simp] theorem memWrite_engine (s : State) (b : Buffer) (k : Nat) (v : List Byte) :
    (memWrite s b k v).engine = s.engine := rfl
@[simp] theorem memWrite_opw (s : State) (b : Buffer) (k : Nat) (v : List Byte) :
    (memWrite s b k v).opw = s.opw := rfl
@[simp] theorem memWrite_phase (s : State) (b : Buffer) (k : Nat) (v : List Byte) :
    (memWrite s b k v).phase = s.phase := rfl
@[simp] theorem memWrite_inputs (s : State) (b : Buffer) (k : Nat) (v : List Byte) :
    (memWrite s b k v).inputs = s.inputs := rfl
@[simp] theorem memWrite_resp (s : State) (b : Buffer) (k : Nat) (v : List Byte) :
    (memWrite s b k v).resp = s.resp := rfl
@[simp] theorem memWrite_draws (s : State) (b : Buffer) (k : Nat) (v : List Byte) :
    (memWrite s b k v).draws = s.draws := rfl
@[simp] theorem memWrite_resets (s : State) (b : Buffer) (k : Nat) (v : List Byte) :
    (memWrite s b k v).resets = s.resets := rfl

/-! `applyUpdate_memWrite` -/

@[simp] theorem applyUpdate_memWrite_status (s : State) (b : Buffer) (k : Nat) (v : List Byte) :
    (applyUpdate s (.memWrite b k v)).status = s.status := rfl
@[simp] theorem applyUpdate_memWrite_irqen (s : State) (b : Buffer) (k : Nat) (v : List Byte) :
    (applyUpdate s (.memWrite b k v)).irqen = s.irqen := rfl
@[simp] theorem applyUpdate_memWrite_keylen (s : State) (b : Buffer) (k : Nat) (v : List Byte) :
    (applyUpdate s (.memWrite b k v)).keylen = s.keylen := rfl
@[simp] theorem applyUpdate_memWrite_msglen (s : State) (b : Buffer) (k : Nat) (v : List Byte) :
    (applyUpdate s (.memWrite b k v)).msglen = s.msglen := rfl
@[simp] theorem applyUpdate_memWrite_outlen (s : State) (b : Buffer) (k : Nat) (v : List Byte) :
    (applyUpdate s (.memWrite b k v)).outlen = s.outlen := rfl
@[simp] theorem applyUpdate_memWrite_marker (s : State) (b : Buffer) (k : Nat) (v : List Byte) :
    (applyUpdate s (.memWrite b k v)).marker = s.marker := rfl
@[simp] theorem applyUpdate_memWrite_mem (s : State) (b : Buffer) (k : Nat) (v : List Byte) :
    (applyUpdate s (.memWrite b k v)).mem = Memory.storeBytes s.mem (bufBase b + k) v := rfl
@[simp] theorem applyUpdate_memWrite_engine (s : State) (b : Buffer) (k : Nat) (v : List Byte) :
    (applyUpdate s (.memWrite b k v)).engine = s.engine := rfl
@[simp] theorem applyUpdate_memWrite_opw (s : State) (b : Buffer) (k : Nat) (v : List Byte) :
    (applyUpdate s (.memWrite b k v)).opw = s.opw := rfl
@[simp] theorem applyUpdate_memWrite_phase (s : State) (b : Buffer) (k : Nat) (v : List Byte) :
    (applyUpdate s (.memWrite b k v)).phase = s.phase := rfl
@[simp] theorem applyUpdate_memWrite_inputs (s : State) (b : Buffer) (k : Nat) (v : List Byte) :
    (applyUpdate s (.memWrite b k v)).inputs = s.inputs := rfl
@[simp] theorem applyUpdate_memWrite_resp (s : State) (b : Buffer) (k : Nat) (v : List Byte) :
    (applyUpdate s (.memWrite b k v)).resp = s.resp := rfl
@[simp] theorem applyUpdate_memWrite_draws (s : State) (b : Buffer) (k : Nat) (v : List Byte) :
    (applyUpdate s (.memWrite b k v)).draws = s.draws := rfl
@[simp] theorem applyUpdate_memWrite_resets (s : State) (b : Buffer) (k : Nat) (v : List Byte) :
    (applyUpdate s (.memWrite b k v)).resets = s.resets := rfl

/-! `applyUpdate_keyValid` -/

@[simp] theorem applyUpdate_keyValid_status (s : State) :
    (applyUpdate s .keyValid).status = { s.status with keyv := true } := rfl
@[simp] theorem applyUpdate_keyValid_irqen (s : State) : (applyUpdate s .keyValid).irqen = s.irqen := rfl
@[simp] theorem applyUpdate_keyValid_keylen (s : State) : (applyUpdate s .keyValid).keylen = s.keylen := rfl
@[simp] theorem applyUpdate_keyValid_msglen (s : State) : (applyUpdate s .keyValid).msglen = s.msglen := rfl
@[simp] theorem applyUpdate_keyValid_outlen (s : State) : (applyUpdate s .keyValid).outlen = s.outlen := rfl
@[simp] theorem applyUpdate_keyValid_marker (s : State) : (applyUpdate s .keyValid).marker = s.marker := rfl
@[simp] theorem applyUpdate_keyValid_mem (s : State) : (applyUpdate s .keyValid).mem = s.mem := rfl
@[simp] theorem applyUpdate_keyValid_engine (s : State) : (applyUpdate s .keyValid).engine = s.engine := rfl
@[simp] theorem applyUpdate_keyValid_opw (s : State) : (applyUpdate s .keyValid).opw = s.opw := rfl
@[simp] theorem applyUpdate_keyValid_phase (s : State) : (applyUpdate s .keyValid).phase = s.phase := rfl
@[simp] theorem applyUpdate_keyValid_inputs (s : State) : (applyUpdate s .keyValid).inputs = s.inputs := rfl
@[simp] theorem applyUpdate_keyValid_resp (s : State) : (applyUpdate s .keyValid).resp = s.resp := rfl
@[simp] theorem applyUpdate_keyValid_draws (s : State) : (applyUpdate s .keyValid).draws = s.draws := rfl
@[simp] theorem applyUpdate_keyValid_resets (s : State) : (applyUpdate s .keyValid).resets = s.resets := rfl

/-! `applyUpdate_outlen` -/

@[simp] theorem applyUpdate_outlen_status (s : State) (n : Nat) : (applyUpdate s (.outlen n)).status = s.status := rfl
@[simp] theorem applyUpdate_outlen_irqen (s : State) (n : Nat) : (applyUpdate s (.outlen n)).irqen = s.irqen := rfl
@[simp] theorem applyUpdate_outlen_keylen (s : State) (n : Nat) : (applyUpdate s (.outlen n)).keylen = s.keylen := rfl
@[simp] theorem applyUpdate_outlen_msglen (s : State) (n : Nat) : (applyUpdate s (.outlen n)).msglen = s.msglen := rfl
@[simp] theorem applyUpdate_outlen_outlen (s : State) (n : Nat) :
    (applyUpdate s (.outlen n)).outlen = BitVec.ofNat 13 n := rfl
@[simp] theorem applyUpdate_outlen_marker (s : State) (n : Nat) : (applyUpdate s (.outlen n)).marker = s.marker := rfl
@[simp] theorem applyUpdate_outlen_mem (s : State) (n : Nat) : (applyUpdate s (.outlen n)).mem = s.mem := rfl
@[simp] theorem applyUpdate_outlen_engine (s : State) (n : Nat) : (applyUpdate s (.outlen n)).engine = s.engine := rfl
@[simp] theorem applyUpdate_outlen_opw (s : State) (n : Nat) : (applyUpdate s (.outlen n)).opw = s.opw := rfl
@[simp] theorem applyUpdate_outlen_phase (s : State) (n : Nat) : (applyUpdate s (.outlen n)).phase = s.phase := rfl
@[simp] theorem applyUpdate_outlen_inputs (s : State) (n : Nat) : (applyUpdate s (.outlen n)).inputs = s.inputs := rfl
@[simp] theorem applyUpdate_outlen_resp (s : State) (n : Nat) : (applyUpdate s (.outlen n)).resp = s.resp := rfl
@[simp] theorem applyUpdate_outlen_draws (s : State) (n : Nat) : (applyUpdate s (.outlen n)).draws = s.draws := rfl
@[simp] theorem applyUpdate_outlen_resets (s : State) (n : Nat) : (applyUpdate s (.outlen n)).resets = s.resets := rfl

/-! `applyUpdate_marker` -/

@[simp] theorem applyUpdate_marker_status (s : State) (b : Byte) :
    (applyUpdate s (.marker b)).status = s.status := rfl
@[simp] theorem applyUpdate_marker_irqen (s : State) (b : Byte) : (applyUpdate s (.marker b)).irqen = s.irqen := rfl
@[simp] theorem applyUpdate_marker_keylen (s : State) (b : Byte) :
    (applyUpdate s (.marker b)).keylen = s.keylen := rfl
@[simp] theorem applyUpdate_marker_msglen (s : State) (b : Byte) :
    (applyUpdate s (.marker b)).msglen = s.msglen := rfl
@[simp] theorem applyUpdate_marker_outlen (s : State) (b : Byte) :
    (applyUpdate s (.marker b)).outlen = s.outlen := rfl
@[simp] theorem applyUpdate_marker_marker (s : State) (b : Byte) : (applyUpdate s (.marker b)).marker = b := rfl
@[simp] theorem applyUpdate_marker_mem (s : State) (b : Byte) : (applyUpdate s (.marker b)).mem = s.mem := rfl
@[simp] theorem applyUpdate_marker_engine (s : State) (b : Byte) :
    (applyUpdate s (.marker b)).engine = s.engine := rfl
@[simp] theorem applyUpdate_marker_opw (s : State) (b : Byte) : (applyUpdate s (.marker b)).opw = s.opw := rfl
@[simp] theorem applyUpdate_marker_phase (s : State) (b : Byte) : (applyUpdate s (.marker b)).phase = s.phase := rfl
@[simp] theorem applyUpdate_marker_inputs (s : State) (b : Byte) :
    (applyUpdate s (.marker b)).inputs = s.inputs := rfl
@[simp] theorem applyUpdate_marker_resp (s : State) (b : Byte) : (applyUpdate s (.marker b)).resp = s.resp := rfl
@[simp] theorem applyUpdate_marker_draws (s : State) (b : Byte) : (applyUpdate s (.marker b)).draws = s.draws := rfl
@[simp] theorem applyUpdate_marker_resets (s : State) (b : Byte) :
    (applyUpdate s (.marker b)).resets = s.resets := rfl

/-! `applyUpdate_padwarn` -/

@[simp] theorem applyUpdate_padwarn_status (s : State) (w : Bool) :
    (applyUpdate s (.padwarn w)).status = { s.status with padwarn := w } := rfl
@[simp] theorem applyUpdate_padwarn_irqen (s : State) (w : Bool) : (applyUpdate s (.padwarn w)).irqen = s.irqen := rfl
@[simp] theorem applyUpdate_padwarn_keylen (s : State) (w : Bool) :
    (applyUpdate s (.padwarn w)).keylen = s.keylen := rfl
@[simp] theorem applyUpdate_padwarn_msglen (s : State) (w : Bool) :
    (applyUpdate s (.padwarn w)).msglen = s.msglen := rfl
@[simp] theorem applyUpdate_padwarn_outlen (s : State) (w : Bool) :
    (applyUpdate s (.padwarn w)).outlen = s.outlen := rfl
@[simp] theorem applyUpdate_padwarn_marker (s : State) (w : Bool) :
    (applyUpdate s (.padwarn w)).marker = s.marker := rfl
@[simp] theorem applyUpdate_padwarn_mem (s : State) (w : Bool) : (applyUpdate s (.padwarn w)).mem = s.mem := rfl
@[simp] theorem applyUpdate_padwarn_engine (s : State) (w : Bool) :
    (applyUpdate s (.padwarn w)).engine = s.engine := rfl
@[simp] theorem applyUpdate_padwarn_opw (s : State) (w : Bool) : (applyUpdate s (.padwarn w)).opw = s.opw := rfl
@[simp] theorem applyUpdate_padwarn_phase (s : State) (w : Bool) : (applyUpdate s (.padwarn w)).phase = s.phase := rfl
@[simp] theorem applyUpdate_padwarn_inputs (s : State) (w : Bool) :
    (applyUpdate s (.padwarn w)).inputs = s.inputs := rfl
@[simp] theorem applyUpdate_padwarn_resp (s : State) (w : Bool) : (applyUpdate s (.padwarn w)).resp = s.resp := rfl
@[simp] theorem applyUpdate_padwarn_draws (s : State) (w : Bool) : (applyUpdate s (.padwarn w)).draws = s.draws := rfl
@[simp] theorem applyUpdate_padwarn_resets (s : State) (w : Bool) :
    (applyUpdate s (.padwarn w)).resets = s.resets := rfl

/-! `applyUpdate_scheduleRegs` -/

@[simp] theorem applyUpdate_scheduleRegs_status (s : State) (c v : Nat) :
    (applyUpdate s (.scheduleRegs c v)).status = s.status := rfl
@[simp] theorem applyUpdate_scheduleRegs_irqen (s : State) (c v : Nat) :
    (applyUpdate s (.scheduleRegs c v)).irqen = s.irqen := rfl
@[simp] theorem applyUpdate_scheduleRegs_keylen (s : State) (c v : Nat) :
    (applyUpdate s (.scheduleRegs c v)).keylen = s.keylen := rfl
@[simp] theorem applyUpdate_scheduleRegs_msglen (s : State) (c v : Nat) :
    (applyUpdate s (.scheduleRegs c v)).msglen = s.msglen := rfl
@[simp] theorem applyUpdate_scheduleRegs_outlen (s : State) (c v : Nat) :
    (applyUpdate s (.scheduleRegs c v)).outlen = s.outlen := rfl
@[simp] theorem applyUpdate_scheduleRegs_marker (s : State) (c v : Nat) :
    (applyUpdate s (.scheduleRegs c v)).marker = s.marker := rfl
@[simp] theorem applyUpdate_scheduleRegs_mem (s : State) (c v : Nat) :
    (applyUpdate s (.scheduleRegs c v)).mem = s.mem := rfl
@[simp] theorem applyUpdate_scheduleRegs_engine (s : State) (c v : Nat) :
    (applyUpdate s (.scheduleRegs c v)).engine = scheduledRegs s.engine s.draws c v := rfl
@[simp] theorem applyUpdate_scheduleRegs_opw (s : State) (c v : Nat) :
    (applyUpdate s (.scheduleRegs c v)).opw = s.opw := rfl
@[simp] theorem applyUpdate_scheduleRegs_phase (s : State) (c v : Nat) :
    (applyUpdate s (.scheduleRegs c v)).phase = s.phase := rfl
@[simp] theorem applyUpdate_scheduleRegs_inputs (s : State) (c v : Nat) :
    (applyUpdate s (.scheduleRegs c v)).inputs = s.inputs := rfl
@[simp] theorem applyUpdate_scheduleRegs_resp (s : State) (c v : Nat) :
    (applyUpdate s (.scheduleRegs c v)).resp = s.resp := rfl
@[simp] theorem applyUpdate_scheduleRegs_draws (s : State) (c v : Nat) :
    (applyUpdate s (.scheduleRegs c v)).draws = s.draws + 1 := rfl
@[simp] theorem applyUpdate_scheduleRegs_resets (s : State) (c v : Nat) :
    (applyUpdate s (.scheduleRegs c v)).resets = s.resets := rfl

/-! `applyUpdate_blockRegs` -/

@[simp] theorem applyUpdate_blockRegs_status (s : State) (r : BlockRegs) :
    (applyUpdate s (.blockRegs r)).status = s.status := rfl
@[simp] theorem applyUpdate_blockRegs_irqen (s : State) (r : BlockRegs) :
    (applyUpdate s (.blockRegs r)).irqen = s.irqen := rfl
@[simp] theorem applyUpdate_blockRegs_keylen (s : State) (r : BlockRegs) :
    (applyUpdate s (.blockRegs r)).keylen = s.keylen := rfl
@[simp] theorem applyUpdate_blockRegs_msglen (s : State) (r : BlockRegs) :
    (applyUpdate s (.blockRegs r)).msglen = s.msglen := rfl
@[simp] theorem applyUpdate_blockRegs_outlen (s : State) (r : BlockRegs) :
    (applyUpdate s (.blockRegs r)).outlen = s.outlen := rfl
@[simp] theorem applyUpdate_blockRegs_marker (s : State) (r : BlockRegs) :
    (applyUpdate s (.blockRegs r)).marker = s.marker := rfl
@[simp] theorem applyUpdate_blockRegs_mem (s : State) (r : BlockRegs) :
    (applyUpdate s (.blockRegs r)).mem = s.mem := rfl
@[simp] theorem applyUpdate_blockRegs_engine (s : State) (r : BlockRegs) :
    (applyUpdate s (.blockRegs r)).engine = transformedRegs s.engine s.draws r := rfl
@[simp] theorem applyUpdate_blockRegs_opw (s : State) (r : BlockRegs) :
    (applyUpdate s (.blockRegs r)).opw = s.opw := rfl
@[simp] theorem applyUpdate_blockRegs_phase (s : State) (r : BlockRegs) :
    (applyUpdate s (.blockRegs r)).phase = s.phase := rfl
@[simp] theorem applyUpdate_blockRegs_inputs (s : State) (r : BlockRegs) :
    (applyUpdate s (.blockRegs r)).inputs = s.inputs := rfl
@[simp] theorem applyUpdate_blockRegs_resp (s : State) (r : BlockRegs) :
    (applyUpdate s (.blockRegs r)).resp = s.resp := rfl
@[simp] theorem applyUpdate_blockRegs_draws (s : State) (r : BlockRegs) :
    (applyUpdate s (.blockRegs r)).draws = s.draws + 1 := rfl
@[simp] theorem applyUpdate_blockRegs_resets (s : State) (r : BlockRegs) :
    (applyUpdate s (.blockRegs r)).resets = s.resets := rfl

/-! `applyUpdate_blockIndex` -/

@[simp] theorem applyUpdate_blockIndex_status (s : State) (n : Nat) :
    (applyUpdate s (.blockIndex n)).status = s.status := rfl
@[simp] theorem applyUpdate_blockIndex_irqen (s : State) (n : Nat) :
    (applyUpdate s (.blockIndex n)).irqen = s.irqen := rfl
@[simp] theorem applyUpdate_blockIndex_keylen (s : State) (n : Nat) :
    (applyUpdate s (.blockIndex n)).keylen = s.keylen := rfl
@[simp] theorem applyUpdate_blockIndex_msglen (s : State) (n : Nat) :
    (applyUpdate s (.blockIndex n)).msglen = s.msglen := rfl
@[simp] theorem applyUpdate_blockIndex_outlen (s : State) (n : Nat) :
    (applyUpdate s (.blockIndex n)).outlen = s.outlen := rfl
@[simp] theorem applyUpdate_blockIndex_marker (s : State) (n : Nat) :
    (applyUpdate s (.blockIndex n)).marker = s.marker := rfl
@[simp] theorem applyUpdate_blockIndex_mem (s : State) (n : Nat) : (applyUpdate s (.blockIndex n)).mem = s.mem := rfl
@[simp] theorem applyUpdate_blockIndex_opw (s : State) (n : Nat) : (applyUpdate s (.blockIndex n)).opw = s.opw := rfl
@[simp] theorem applyUpdate_blockIndex_phase (s : State) (n : Nat) :
    (applyUpdate s (.blockIndex n)).phase = s.phase := rfl
@[simp] theorem applyUpdate_blockIndex_inputs (s : State) (n : Nat) :
    (applyUpdate s (.blockIndex n)).inputs = s.inputs := rfl
@[simp] theorem applyUpdate_blockIndex_resp (s : State) (n : Nat) :
    (applyUpdate s (.blockIndex n)).resp = s.resp := rfl
@[simp] theorem applyUpdate_blockIndex_draws (s : State) (n : Nat) :
    (applyUpdate s (.blockIndex n)).draws = s.draws + 1 := rfl
@[simp] theorem applyUpdate_blockIndex_resets (s : State) (n : Nat) :
    (applyUpdate s (.blockIndex n)).resets = s.resets := rfl

/-! `applyUpdate_scanIndex` -/

@[simp] theorem applyUpdate_scanIndex_status (s : State) (n : Nat) :
    (applyUpdate s (.scanIndex n)).status = s.status := rfl
@[simp] theorem applyUpdate_scanIndex_irqen (s : State) (n : Nat) :
    (applyUpdate s (.scanIndex n)).irqen = s.irqen := rfl
@[simp] theorem applyUpdate_scanIndex_keylen (s : State) (n : Nat) :
    (applyUpdate s (.scanIndex n)).keylen = s.keylen := rfl
@[simp] theorem applyUpdate_scanIndex_msglen (s : State) (n : Nat) :
    (applyUpdate s (.scanIndex n)).msglen = s.msglen := rfl
@[simp] theorem applyUpdate_scanIndex_outlen (s : State) (n : Nat) :
    (applyUpdate s (.scanIndex n)).outlen = s.outlen := rfl
@[simp] theorem applyUpdate_scanIndex_marker (s : State) (n : Nat) :
    (applyUpdate s (.scanIndex n)).marker = s.marker := rfl
@[simp] theorem applyUpdate_scanIndex_mem (s : State) (n : Nat) : (applyUpdate s (.scanIndex n)).mem = s.mem := rfl
@[simp] theorem applyUpdate_scanIndex_opw (s : State) (n : Nat) : (applyUpdate s (.scanIndex n)).opw = s.opw := rfl
@[simp] theorem applyUpdate_scanIndex_phase (s : State) (n : Nat) :
    (applyUpdate s (.scanIndex n)).phase = s.phase := rfl
@[simp] theorem applyUpdate_scanIndex_inputs (s : State) (n : Nat) :
    (applyUpdate s (.scanIndex n)).inputs = s.inputs := rfl
@[simp] theorem applyUpdate_scanIndex_resp (s : State) (n : Nat) : (applyUpdate s (.scanIndex n)).resp = s.resp := rfl
@[simp] theorem applyUpdate_scanIndex_draws (s : State) (n : Nat) :
    (applyUpdate s (.scanIndex n)).draws = s.draws + 1 := rfl
@[simp] theorem applyUpdate_scanIndex_resets (s : State) (n : Nat) :
    (applyUpdate s (.scanIndex n)).resets = s.resets := rfl

/-! `assertReset` -/

@[simp] theorem assertReset_status (s : State) : (assertReset s).status = State.reset.status := rfl
@[simp] theorem assertReset_irqen (s : State) : (assertReset s).irqen = State.reset.irqen := rfl
@[simp] theorem assertReset_keylen (s : State) : (assertReset s).keylen = State.reset.keylen := rfl
@[simp] theorem assertReset_msglen (s : State) : (assertReset s).msglen = State.reset.msglen := rfl
@[simp] theorem assertReset_outlen (s : State) : (assertReset s).outlen = State.reset.outlen := rfl
@[simp] theorem assertReset_marker (s : State) : (assertReset s).marker = State.reset.marker := rfl
@[simp] theorem assertReset_mem (s : State) : (assertReset s).mem = State.reset.mem := rfl
@[simp] theorem assertReset_engine (s : State) : (assertReset s).engine = State.reset.engine := rfl
@[simp] theorem assertReset_opw (s : State) : (assertReset s).opw = State.reset.opw := rfl
@[simp] theorem assertReset_phase (s : State) : (assertReset s).phase = State.reset.phase := rfl
@[simp] theorem assertReset_inputs (s : State) : (assertReset s).inputs = s.inputs := rfl
@[simp] theorem assertReset_resp (s : State) : (assertReset s).resp = State.reset.resp := rfl
@[simp] theorem assertReset_draws (s : State) : (assertReset s).draws = s.draws := rfl
@[simp] theorem assertReset_resets (s : State) : (assertReset s).resets = s.resets + 1 := rfl

/-! `respond` -/

@[simp] theorem respond_status (s : State) (r : BusResponse) : (respond s r).status = s.status := rfl
@[simp] theorem respond_irqen (s : State) (r : BusResponse) : (respond s r).irqen = s.irqen := rfl
@[simp] theorem respond_keylen (s : State) (r : BusResponse) : (respond s r).keylen = s.keylen := rfl
@[simp] theorem respond_msglen (s : State) (r : BusResponse) : (respond s r).msglen = s.msglen := rfl
@[simp] theorem respond_outlen (s : State) (r : BusResponse) : (respond s r).outlen = s.outlen := rfl
@[simp] theorem respond_marker (s : State) (r : BusResponse) : (respond s r).marker = s.marker := rfl
@[simp] theorem respond_mem (s : State) (r : BusResponse) : (respond s r).mem = s.mem := rfl
@[simp] theorem respond_engine (s : State) (r : BusResponse) : (respond s r).engine = s.engine := rfl
@[simp] theorem respond_opw (s : State) (r : BusResponse) : (respond s r).opw = s.opw := rfl
@[simp] theorem respond_phase (s : State) (r : BusResponse) : (respond s r).phase = s.phase := rfl
@[simp] theorem respond_inputs (s : State) (r : BusResponse) : (respond s r).inputs = s.inputs := rfl
@[simp] theorem respond_resp (s : State) (r : BusResponse) : (respond s r).resp = some r := rfl
@[simp] theorem respond_draws (s : State) (r : BusResponse) : (respond s r).draws = s.draws := rfl
@[simp] theorem respond_resets (s : State) (r : BusResponse) : (respond s r).resets = s.resets := rfl

/-! `drawn` -/

@[simp] theorem drawn_status (s : State) : (drawn s).status = s.status := rfl
@[simp] theorem drawn_irqen (s : State) : (drawn s).irqen = s.irqen := rfl
@[simp] theorem drawn_keylen (s : State) : (drawn s).keylen = s.keylen := rfl
@[simp] theorem drawn_msglen (s : State) : (drawn s).msglen = s.msglen := rfl
@[simp] theorem drawn_outlen (s : State) : (drawn s).outlen = s.outlen := rfl
@[simp] theorem drawn_marker (s : State) : (drawn s).marker = s.marker := rfl
@[simp] theorem drawn_mem (s : State) : (drawn s).mem = s.mem := rfl
@[simp] theorem drawn_engine (s : State) : (drawn s).engine = s.engine := rfl
@[simp] theorem drawn_opw (s : State) : (drawn s).opw = s.opw := rfl
@[simp] theorem drawn_phase (s : State) : (drawn s).phase = s.phase := rfl
@[simp] theorem drawn_inputs (s : State) : (drawn s).inputs = s.inputs := rfl
@[simp] theorem drawn_resp (s : State) : (drawn s).resp = s.resp := rfl
@[simp] theorem drawn_draws (s : State) : (drawn s).draws = s.draws + 1 := rfl
@[simp] theorem drawn_resets (s : State) : (drawn s).resets = s.resets := rfl

end Sys2Proof.Machine
end

