-- ==== Sys2Proof/Laws/Memory.lean ====
section
/-! SUPPORT. The laws of memory: read after write, what a write leaves alone, and that the canonical form is kept. -/

namespace Sys2Proof.Machine

theorem lookup_store (m : Memory) (a : Nat) (v : Byte) (x : Nat) :
    Memory.lookup (Memory.store m a v) x = if x = a then some v else Memory.lookup m x := by
  induction m with
  | nil => grind [Memory.store, Memory.lookup]
  | cons cell rest ih =>
    obtain ⟨k, b⟩ := cell
    grind [Memory.store, Memory.lookup]

theorem lookup_storeBytes (vs : List Byte) (m : Memory) (a x : Nat) :
    Memory.lookup (Memory.storeBytes m a vs) x =
      if a ≤ x ∧ x < a + vs.length then vs[x - a]? else Memory.lookup m x := by
  induction vs generalizing m a with
  | nil => simp only [Memory.storeBytes, List.length_nil]; split <;> [omega; rfl]
  | cons v vs ih =>
    rw [Memory.storeBytes, ih, lookup_store, List.length_cons]
    by_cases hx : x = a
    · subst hx; simp
    · by_cases hr : a + 1 ≤ x ∧ x < a + 1 + vs.length
      · have e : x - a = (x - (a + 1)) + 1 := by omega
        rw [if_pos hr, if_pos (by omega), e, List.getElem?_cons_succ]
      · rw [if_neg hr, if_neg hx, if_neg (by omega)]

/-- The first address listed, or a given bound when none is. -/
theorem wf_cons {k : Nat} {b : Byte} {rest : Memory} :
    Memory.wf ((k, b) :: rest) = true ↔ (∀ k' b' r, rest = (k', b') :: r → k < k') ∧ Memory.wf rest = true := by
  cases rest with
  | nil => simp [Memory.wf]
  | cons c r => obtain ⟨k', b'⟩ := c; grind [Memory.wf]

theorem store_wf {m : Memory} (a : Nat) (v : Byte) (h : Memory.wf m = true) :
    Memory.wf (Memory.store m a v) = true := by
  induction m with
  | nil => rfl
  | cons cell rest ih =>
    obtain ⟨k, b⟩ := cell
    have hr := (wf_cons.mp h).2
    have hk := (wf_cons.mp h).1
    simp only [Memory.store]
    split
    · rename_i hlt
      exact wf_cons.mpr ⟨fun k' b' r e => by simp only [List.cons.injEq, Prod.mk.injEq] at e; omega, h⟩
    · split
      · rename_i he
        subst he
        exact wf_cons.mpr ⟨hk, hr⟩
      · rename_i h1 h2
        refine wf_cons.mpr ⟨fun k' b' r e => ?_, ih hr⟩
        cases rest with
        | nil => simp only [Memory.store, List.cons.injEq, Prod.mk.injEq] at e; omega
        | cons c r' =>
          obtain ⟨k2, b2⟩ := c
          have := hk k2 b2 r' rfl
          simp only [Memory.store] at e
          split at e
          · simp only [List.cons.injEq, Prod.mk.injEq] at e; omega
          · split at e <;> simp only [List.cons.injEq, Prod.mk.injEq] at e <;> omega

theorem storeBytes_wf (vs : List Byte) {m : Memory} (a : Nat) (h : Memory.wf m = true) :
    Memory.wf (Memory.storeBytes m a vs) = true := by
  induction vs generalizing m a with
  | nil => exact h
  | cons v vs ih => exact ih (a + 1) (store_wf a v h)

theorem mem_store {m : Memory} {a : Nat} {v : Byte} {c : Host.Cell} (h : c ∈ Memory.store m a v) :
    c.1 = a ∨ c ∈ m := by
  induction m with
  | nil => simp only [Memory.store, List.mem_singleton] at h; subst h; exact .inl rfl
  | cons cell rest ih =>
    obtain ⟨k, b⟩ := cell
    simp only [Memory.store] at h
    split at h
    · rcases List.mem_cons.mp h with h | h
      · subst h; exact .inl rfl
      · exact .inr h
    · split at h
      · rcases List.mem_cons.mp h with h | h
        · subst h; exact .inl rfl
        · exact .inr (List.mem_cons_of_mem _ h)
      · rcases List.mem_cons.mp h with h | h
        · subst h; exact .inr (List.mem_cons_self)
        · exact (ih h).imp id (List.mem_cons_of_mem _)

theorem mem_storeBytes (vs : List Byte) {m : Memory} {a : Nat} {c : Host.Cell}
    (h : c ∈ Memory.storeBytes m a vs) : (a ≤ c.1 ∧ c.1 < a + vs.length) ∨ c ∈ m := by
  induction vs generalizing m a with
  | nil => exact .inr h
  | cons v vs ih =>
    rcases ih h with h | h
    · left; simp only [List.length_cons]; omega
    · rcases mem_store h with h | h
      · left; simp only [List.length_cons]; omega
      · exact .inr h

/-! Reading through the accessors. What is read depends on the memory and on the reset number alone. -/

theorem readByte_of_mem {s t : State} (hm : t.mem = s.mem) (hr : t.resets = s.resets) (a : Nat) :
    readByte t a = readByte s a := by rw [readByte, readByte, hm, hr]

theorem readBytes_of_mem {s t : State} (hm : t.mem = s.mem) (hr : t.resets = s.resets) (a n : Nat) :
    readBytes t a n = readBytes s a n := by
  induction n generalizing a with
  | zero => rfl
  | succ n ih => rw [readBytes, readBytes, ih, readByte_of_mem hm hr]

theorem memRead_of_mem {s t : State} (hm : t.mem = s.mem) (hr : t.resets = s.resets) (b : Buffer) (k n : Nat) :
    memRead t b k n = memRead s b k n := readBytes_of_mem hm hr ..

@[simp] theorem readBytes_length (s : State) (a n : Nat) : (readBytes s a n).length = n := by
  induction n generalizing a with
  | zero => rfl
  | succ n ih => simp [readBytes, ih]

@[simp] theorem memRead_length (s : State) (b : Buffer) (k n : Nat) : (memRead s b k n).length = n :=
  readBytes_length ..

theorem readBytes_getElem? (s : State) (a n i : Nat) :
    (readBytes s a n)[i]? = if i < n then some (readByte s (a + i)) else none := by
  induction n generalizing a i with
  | zero => simp [readBytes]
  | succ n ih =>
    cases i with
    | zero => simp [readBytes]
    | succ i =>
      rw [readBytes, List.getElem?_cons_succ, ih, show a + 1 + i = a + (i + 1) by omega]
      simp only [Nat.add_lt_add_iff_right]

theorem readBytes_congr {s t : State} {a n : Nat} (h : ∀ i, i < n → readByte t (a + i) = readByte s (a + i)) :
    readBytes t a n = readBytes s a n := by
  apply List.ext_getElem?
  intro i
  rw [readBytes_getElem?, readBytes_getElem?]
  split
  · rw [h i ‹_›]
  · rfl

theorem readByte_congr {s t : State} {a : Nat} (hm : Memory.lookup t.mem a = Memory.lookup s.mem a)
    (hr : t.resets = s.resets) : readByte t a = readByte s a := by
  rw [readByte, readByte, hm, hr]

/-- Everything a buffer write does to what is read: the bytes written, and every other byte as before. -/
theorem readByte_memWrite (s : State) (b : Buffer) (k : Nat) (v : List Byte) (a : Nat) :
    readByte (memWrite s b k v) a =
      if bufBase b + k ≤ a ∧ a < bufBase b + k + v.length then v.getD (a - (bufBase b + k)) 0 else readByte s a := by
  simp only [readByte, memWrite_mem, memWrite_resets, lookup_storeBytes]
  split
  · rename_i h
    rw [List.getD_eq_getElem?_getD, List.getElem?_eq_getElem (by omega)]; simp
  · rfl

theorem memRead_memWrite (s : State) (b : Buffer) (k : Nat) (v : List Byte) :
    memRead (memWrite s b k v) b k v.length = v := by
  apply List.ext_getElem?
  intro i
  rw [memRead, readBytes_getElem?]
  split
  · rename_i h
    rw [readByte_memWrite, if_pos (by omega), show bufBase b + k + i - (bufBase b + k) = i by omega,
      List.getD_eq_getElem?_getD, List.getElem?_eq_getElem h]; rfl
  · rw [List.getElem?_eq_none (by omega)]

/-- A part of what was written reads back. -/
theorem memRead_memWrite_part (s : State) (b : Buffer) (v : List Byte) {i n : Nat} (h : i + n ≤ v.length) :
    memRead (memWrite s b 0 v) b i n = (v.drop i).take n := by
  apply List.ext_getElem?
  intro j
  rw [memRead, readBytes_getElem?, List.getElem?_take, List.getElem?_drop]
  split
  · rw [readByte_memWrite, if_pos (by omega), show bufBase b + i + j - (bufBase b + 0) = i + j by omega,
      List.getD_eq_getElem?_getD, List.getElem?_eq_getElem (by omega)]; rfl
  · rfl

/-- Two reads of the same bytes agree when the bytes do. -/
theorem memRead_congr {s t : State} {b : Buffer} {k n : Nat}
    (h : ∀ a, bufBase b + k ≤ a → a < bufBase b + k + n → readByte t a = readByte s a) :
    memRead t b k n = memRead s b k n := readBytes_congr fun i hi => h _ (by omega) (by omega)

/-- Byte `i` of a read. -/
theorem memRead_getD (s : State) (b : Buffer) (k n : Nat) {i : Nat} (h : i < n) :
    (memRead s b k n).getD i 0 = readByte s (bufBase b + k + i) := by
  rw [memRead, List.getD_eq_getElem?_getD, readBytes_getElem?, if_pos h]; rfl

/-- A part of a read. -/
theorem memRead_part (s : State) (b : Buffer) {k n m : Nat} (h : k + m ≤ n) :
    ((memRead s b 0 n).drop k).take m = memRead s b k m := by
  apply List.ext_getElem?
  intro j
  rw [List.getElem?_take, List.getElem?_drop, memRead, memRead, readBytes_getElem?, readBytes_getElem?]
  split
  · rw [if_pos (by omega), show bufBase b + 0 + (k + j) = bufBase b + k + j by omega]
  · rfl

end Sys2Proof.Machine
end

