-- ==== Sys2Proof/Laws/Codec.lean ====
section
/-! SUPPORT. The word codec and the datapath: each operation's inverse (41_datapath.md R131, R133, R135, R137). -/

namespace Sys2Proof.Machine

@[simp] theorem bytesOfWord_wordOfBytes (b0 b1 b2 b3 : Byte) :
    bytesOfWord (wordOfBytes b0 b1 b2 b3) = [b0, b1, b2, b3] := by
  simp only [bytesOfWord, wordOfBytes, List.cons.injEq, and_true]
  refine ⟨?_, ?_, ?_, ?_⟩ <;> (ext i hi; simp [BitVec.getElem_extractLsb']; try grind)

@[simp] theorem wordOfBytes_extract (w : Word) :
    wordOfBytes (w.extractLsb' 0 8) (w.extractLsb' 8 8) (w.extractLsb' 16 8) (w.extractLsb' 24 8) = w := by
  simp only [wordOfBytes]
  ext i hi
  simp
  grind

@[simp] theorem bytesOfWord_length (w : Word) : (bytesOfWord w).length = 4 := rfl

theorem wordsToBytes_cons (w : Word) (ws : List Word) :
    wordsToBytes (w :: ws) = bytesOfWord w ++ wordsToBytes ws := rfl

@[simp] theorem wordsToBytes_length (ws : List Word) : (wordsToBytes ws).length = 4 * ws.length := by
  induction ws with
  | nil => rfl
  | cons w ws ih => rw [wordsToBytes_cons, List.length_append, ih, bytesOfWord_length, List.length_cons]; omega

theorem bytesToWords_bytesOfWord_append (w : Word) (bs : List Byte) :
    bytesToWords (bytesOfWord w ++ bs) = w :: bytesToWords bs := by
  simp [bytesOfWord, bytesToWords]

@[simp] theorem bytesToWords_wordsToBytes (ws : List Word) : bytesToWords (wordsToBytes ws) = ws := by
  induction ws with
  | nil => rfl
  | cons w ws ih => rw [wordsToBytes_cons, bytesToWords_bytesOfWord_append, ih]

theorem wordsToBytes_bytesToWords : ∀ {bs : List Byte}, bs.length % 4 = 0 → wordsToBytes (bytesToWords bs) = bs
  | [], _ => rfl
  | [_], h => by simp at h
  | [_, _], h => by simp at h
  | [_, _, _], h => by simp at h
  | b0 :: b1 :: b2 :: b3 :: rest, h => by
    have hr : rest.length % 4 = 0 := by simp only [List.length_cons] at h; omega
    rw [bytesToWords, wordsToBytes_cons, bytesOfWord_wordOfBytes, wordsToBytes_bytesToWords hr]; rfl

theorem bytesToWords_length : ∀ bs : List Byte, (bytesToWords bs).length = bs.length / 4
  | [] => rfl
  | [_] => by simp [bytesToWords]
  | [_, _] => by simp [bytesToWords]
  | [_, _, _] => by simp [bytesToWords]
  | b0 :: b1 :: b2 :: b3 :: rest => by
    rw [bytesToWords, List.length_cons, bytesToWords_length rest]
    simp only [List.length_cons]; omega

/-- Word `i` is LE32 of the four bytes from `4 * i`. -/
theorem bytesToWords_getD : ∀ (bs : List Byte) (i : Nat), 4 * i + 3 < bs.length →
    (bytesToWords bs).getD i 0 =
      wordOfBytes (bs.getD (4 * i) 0) (bs.getD (4 * i + 1) 0) (bs.getD (4 * i + 2) 0) (bs.getD (4 * i + 3) 0)
  | [], _, h => by simp at h
  | [_], _, h => by simp at h
  | [_, _], _, h => by simp at h
  | [_, _, _], _, h => by simp at h
  | b0 :: b1 :: b2 :: b3 :: rest, 0, _ => rfl
  | b0 :: b1 :: b2 :: b3 :: rest, i + 1, h => by
    have := bytesToWords_getD rest i (by simp only [List.length_cons] at h; omega)
    simpa [bytesToWords, Nat.mul_add] using this

/-! Rotations. -/

theorem rotl_eq_rotateLeft (x : Word) (n : Nat) : rotl x n = x.rotateLeft n := by
  rw [rotl]
  ext i hi
  simp only [BitVec.getElem_rotateLeft]
  split
  · simp_all
  · simp; grind

theorem rotr_eq_rotateRight (x : Word) (n : Nat) : rotr x n = x.rotateRight n := by
  rw [rotr]
  ext i hi
  simp only [BitVec.getElem_rotateRight]
  split
  · simp_all
  · simp; grind

@[simp] theorem rotr_rotl (x : Word) (n : Nat) : rotr (rotl x n) n = x := by
  rw [rotl_eq_rotateLeft, rotr_eq_rotateRight]
  ext i hi
  simp only [BitVec.getElem_rotateRight, BitVec.getElem_rotateLeft]
  grind

@[simp] theorem rotl_rotr (x : Word) (n : Nat) : rotl (rotr x n) n = x := by
  rw [rotl_eq_rotateLeft, rotr_eq_rotateRight]
  ext i hi
  simp only [BitVec.getElem_rotateRight, BitVec.getElem_rotateLeft]
  grind

@[simp] theorem sub32_add32 (a b : Word) : sub32 (add32 a b) b = a := by simp [sub32, add32]
@[simp] theorem add32_sub32 (a b : Word) : add32 (sub32 a b) b = a := by simp [sub32, add32]
@[simp] theorem xor32_xor32 (a b : Word) : xor32 (xor32 a b) b = a := by simp [xor32]

theorem amt_eq_mod (x : Word) : amt x = x.toNat % 32 := by
  simp only [amt, BitVec.toNat_and]
  exact Nat.and_two_pow_sub_one_eq_mod x.toNat 5

end Sys2Proof.Machine
end

