-- ==== Sys2Proof/Laws/Block.lean ====
section
/-! SUPPORT. The block transform round by round: each step of decryption undoes the step of encryption it names, and
the other way (43_block_transform.md R172 to R175). -/

namespace Sys2Proof.Machine

/-- Two register files hold the same block: A, B, C and D agree. -/
def SameBlock (r r' : BlockRegs) : Prop := r.a = r'.a ∧ r.b = r'.b ∧ r.c = r'.c ∧ r.d = r'.d

theorem SameBlock.rfl' (r : BlockRegs) : SameBlock r r := ⟨rfl, rfl, rfl, rfl⟩

theorem decRound_encRound (S : List Word) (i : Nat) {r r' : BlockRegs} (h : SameBlock r (encRound S r' i)) :
    SameBlock (decRound S r i) r' := by
  obtain ⟨ha, hb, hc, hd⟩ := h
  simp only [encRound] at ha hb hc hd
  simp [SameBlock, decRound, ha, hb, hc, hd]

theorem encRound_decRound (S : List Word) (i : Nat) {r r' : BlockRegs} (h : SameBlock r (decRound S r' i)) :
    SameBlock (encRound S r i) r' := by
  obtain ⟨ha, hb, hc, hd⟩ := h
  simp only [decRound] at ha hb hc hd
  simp [SameBlock, encRound, ha, hb, hc, hd]

/-- Undoing the rounds of a list, last first, gives back the block they started from. -/
theorem foldl_undo {g h : BlockRegs → Nat → BlockRegs}
    (undo : ∀ i r r', SameBlock r (g r' i) → SameBlock (h r i) r') :
    ∀ (ns : List Nat) (r r' : BlockRegs), SameBlock r (ns.foldl g r') → SameBlock (ns.reverse.foldl h r) r'
  | [], _, _, hr => hr
  | i :: ns, r, r', hr => by
    rw [List.reverse_cons, List.foldl_append]
    exact undo i _ _ (foldl_undo undo ns r (g r' i) hr)

theorem unwhitenOut_whitenOut (S : List Word) {r r' : BlockRegs} (h : SameBlock r (whitenOut S r')) :
    SameBlock (unwhitenOut S r) r' := by
  obtain ⟨ha, hb, hc, hd⟩ := h
  simp only [whitenOut] at ha hb hc hd
  simp [SameBlock, unwhitenOut, ha, hb, hc, hd]

theorem whitenOut_unwhitenOut (S : List Word) {r r' : BlockRegs} (h : SameBlock r (unwhitenOut S r')) :
    SameBlock (whitenOut S r) r' := by
  obtain ⟨ha, hb, hc, hd⟩ := h
  simp only [unwhitenOut] at ha hb hc hd
  simp [SameBlock, whitenOut, ha, hb, hc, hd]

theorem unwhitenIn_whitenIn (S : List Word) {r r' : BlockRegs} (h : SameBlock r (whitenIn S r')) :
    SameBlock (unwhitenIn S r) r' := by
  obtain ⟨ha, hb, hc, hd⟩ := h
  simp only [whitenIn] at ha hb hc hd
  simp [SameBlock, unwhitenIn, ha, hb, hc, hd]

theorem whitenIn_unwhitenIn (S : List Word) {r r' : BlockRegs} (h : SameBlock r (unwhitenIn S r')) :
    SameBlock (whitenIn S r) r' := by
  obtain ⟨ha, hb, hc, hd⟩ := h
  simp only [unwhitenIn] at ha hb hc hd
  simp [SameBlock, whitenIn, ha, hb, hc, hd]

/-! Loading and storing a block. -/

@[simp] theorem storeBlock_length (r : BlockRegs) : (storeBlock r).length = 16 := by simp [storeBlock]

@[simp] theorem encryptBlock_length (blk : List Byte) (S : List Word) : (encryptBlock blk S).length = 16 := by
  simp [encryptBlock]

@[simp] theorem decryptBlock_length (blk : List Byte) (S : List Word) : (decryptBlock blk S).length = 16 := by
  simp [decryptBlock]

theorem loadBlock_storeBlock (r : BlockRegs) : SameBlock (loadBlock (storeBlock r)) r := by
  simp [SameBlock, loadBlock, storeBlock]

theorem storeBlock_congr {r r' : BlockRegs} (h : SameBlock r r') : storeBlock r = storeBlock r' := by
  obtain ⟨ha, hb, hc, hd⟩ := h
  simp [storeBlock, ha, hb, hc, hd]

theorem storeBlock_loadBlock {blk : List Byte} (h : blk.length = 16) : storeBlock (loadBlock blk) = blk := by
  have hw : wordsToBytes (bytesToWords blk) = blk := wordsToBytes_bytesToWords (by omega)
  have hl : (bytesToWords blk).length = 4 := by rw [bytesToWords_length, h]
  match hb : bytesToWords blk, hl with
  | [a, b, c, d], _ => rw [hb] at hw; simpa [storeBlock, loadBlock, hb] using hw

end Sys2Proof.Machine
end

