-- ==== Sys2Proof/Laws/Bus.lean ====
section
/-! SUPPORT. The address map range by range (20_memory.md R66, R67), and the two accesses at an aligned address. -/

namespace Sys2Proof.Machine

theorem inWindow_iff (b : Buffer) (a : Nat) : inWindow b a = true ↔ bufBase b ≤ a ∧ a < bufBase b + bufSize b := by
  simp [inWindow]

theorem regAt_none {a : Nat} (h : 0x0024 ≤ a) : regAt a = none := by
  unfold regAt
  split <;> first | omega | rfl

theorem locate_key {a : Nat} (h : 0x0100 ≤ a ∧ a ≤ 0x01FF) : locate a = some (.window .key (a - 0x0100)) := by
  grind [locate, inWindow, bufBase, bufSize]

theorem locate_subkey {a : Nat} (h : 0x0200 ≤ a ∧ a ≤ 0x02AF) : locate a = some (.window .subkey (a - 0x0200)) := by
  grind [locate, inWindow, bufBase, bufSize]

theorem locate_blkin {a : Nat} (h : 0x0300 ≤ a ∧ a ≤ 0x030F) : locate a = some (.window .blkin (a - 0x0300)) := by
  grind [locate, inWindow, bufBase, bufSize]

theorem locate_blkout {a : Nat} (h : 0x0310 ≤ a ∧ a ≤ 0x031F) : locate a = some (.window .blkout (a - 0x0310)) := by
  grind [locate, inWindow, bufBase, bufSize]

theorem locate_msgin {a : Nat} (h : 0x1000 ≤ a ∧ a ≤ 0x1FFF) : locate a = some (.window .msgin (a - 0x1000)) := by
  grind [locate, inWindow, bufBase, bufSize]

theorem locate_msgout {a : Nat} (h : 0x2000 ≤ a ∧ a ≤ 0x2FFF) : locate a = some (.window .msgout (a - 0x2000)) := by
  grind [locate, inWindow, bufBase, bufSize]

theorem locate_unmapped {a : Nat}
    (h : (0x0024 ≤ a ∧ a ≤ 0x00FF) ∨ (0x02B0 ≤ a ∧ a ≤ 0x02FF) ∨ (0x0320 ≤ a ∧ a ≤ 0x0FFF) ∨ 0x3000 ≤ a) :
    locate a = none := by
  have hr : regAt a = none := regAt_none (by omega)
  grind [locate, inWindow, bufBase, bufSize]

/-- An aligned address below 0x0024 is a register's (10_state.md R21). -/
theorem locate_register {a : Nat} (h : a < 0x0024) (h4 : a % 4 = 0) :
    locate a = some .id ∧ a = 0x0000 ∨ locate a = some .param ∧ a = 0x0004 ∨ locate a = some .cmd ∧ a = 0x0008 ∨
      locate a = some .status ∧ a = 0x000C ∨ locate a = some .irqen ∧ a = 0x0010 ∨
      locate a = some .keylen ∧ a = 0x0014 ∨ locate a = some .msglen ∧ a = 0x0018 ∨
      locate a = some .outlen ∧ a = 0x001C ∨ locate a = some .marker ∧ a = 0x0020 := by
  obtain ⟨k, rfl⟩ : ∃ k, a = 4 * k := ⟨a / 4, by omega⟩
  have hk : k < 9 := by omega
  interval_cases k <;> decide

theorem busRead_aligned {s : State} {a : Addr} (h : a.toNat % 4 = 0) {loc : Location}
    (hl : locate a.toNat = some loc) :
    busRead s a =
      if loc = .cmd then (0, false)
      else if engineWritten loc && s.status.busy then (Config.anyWord s.draws 0, false)
      else if isSubkey loc && !s.status.keyv then (0, false)
      else (locValue s loc, false) := by
  rw [busRead, if_pos (by simp [aligned, h]), hl]

theorem busRead_unmapped {s : State} {a : Addr} (hl : locate a.toNat = none) : busRead s a = (0, true) := by
  rw [busRead, hl]; exact ite_self _

theorem busWrite_aligned {s : State} {a : Addr} {v : Word} (h : a.toNat % 4 = 0) {loc : Location}
    (hl : locate a.toNat = some loc) :
    busWrite s a v = if readOnly loc then (s, true) else writeLoc s loc v := by
  rw [busWrite, if_pos (by simp [aligned, h]), hl]

theorem busWrite_unmapped {s : State} {a : Addr} {v : Word} (hl : locate a.toNat = none) :
    busWrite s a v = (s, true) := by
  rw [busWrite, hl]; exact ite_self _

theorem busRead_misaligned {s : State} {a : Addr} (h : a.toNat % 4 ≠ 0) : busRead s a = (0, true) := by
  rw [busRead, if_neg (by simp [aligned, h])]

theorem busWrite_misaligned {s : State} {a : Addr} {v : Word} (h : a.toNat % 4 ≠ 0) :
    busWrite s a v = (s, true) := by
  rw [busWrite, if_neg (by simp [aligned, h])]

/-- The word of a window, from its four bytes (20_memory.md R63). -/
theorem windowWord_eq (s : State) (b : Buffer) (k : Nat) :
    windowWord s b k =
      wordOfBytes (readByte s (bufBase b + k)) (readByte s (bufBase b + k + 1)) (readByte s (bufBase b + k + 2))
        (readByte s (bufBase b + k + 3)) := rfl

/-- A window offset of an aligned address is whole words from the window's end. -/
theorem locate_window {a k : Nat} {b : Buffer} (h : locate a = some (.window b k)) :
    a = bufBase b + k ∧ k < bufSize b := by
  have hn : ∀ n b k, regAt n ≠ some (.window b k) := by
    intro n b k; unfold regAt; split <;> simp
  have := hn a b k
  simp only [locate, inWindow_iff] at h
  grind [bufBase, bufSize]

/-- Everything an accepted write can do: one register, an acceptance, or four bytes of one of the three input
windows. -/
theorem busWrite_cases (s : State) (a : Addr) (v : Word) :
    busWrite s a v = (s, true) ∨
    busWrite s a v = ({ s with status := clearStatus s.status v }, false) ∨
    busWrite s a v = ({ s with irqen := irqenOfWord v }, false) ∨
    (s.status.busy = false ∧ a.toNat % 4 = 0 ∧
      (busWrite s a v = (accept s v, false) ∨
       busWrite s a v = ({ s with keylen := v.setWidth 9 }, false) ∨
       busWrite s a v = ({ s with msglen := v.setWidth 13 }, false) ∨
       ∃ b k, bufReadOnly b = false ∧ a.toNat = bufBase b + k ∧ k < bufSize b ∧
         busWrite s a v = (memWrite s b k (bytesOfWord v), false))) := by
  by_cases h4 : a.toNat % 4 = 0
  · cases hl : locate a.toNat with
    | none => exact .inl (busWrite_unmapped hl)
    | some loc =>
      rw [busWrite_aligned h4 hl]
      cases hb : s.status.busy <;> cases loc <;> simp [readOnly, writeLoc, hb, h4]
      all_goals (rename_i b k; cases hr : bufReadOnly b <;> simp)
      exact .inr (.inr (.inr (.inr (.inr ⟨b, hr, k, (locate_window hl).1, (locate_window hl).2, rfl⟩))))
  · exact .inl (busWrite_misaligned h4)

end Sys2Proof.Machine
end

