-- ==== Sys2Proof/Laws/Decode.lean ====
section
/-! SUPPORT. The fields of a command word as numbers (30_encoding.md R90). -/

namespace Sys2Proof.Machine

theorem opcodeField_toNat (w : Word) : (opcodeField w).toNat = w.toNat % 16 := by
  simp [opcodeField, BitVec.extractLsb'_toNat]

theorem rsvField_toNat (w : Word) : (rsvField w).toNat = w.toNat / 16 := by
  have := w.isLt
  simp [rsvField, BitVec.extractLsb'_toNat, Nat.shiftRight_eq_div_pow]
  omega

theorem rsvField_eq_zero (w : Word) : rsvField w = 0 ↔ w.toNat / 16 = 0 := by
  rw [← rsvField_toNat]
  exact ⟨fun h => by rw [h]; rfl, fun h => BitVec.eq_of_toNat_eq h⟩

end Sys2Proof.Machine
end

