-- ==== Sys2Proof/Laws/Schedule.lean ====
section
/-! SUPPORT. The key schedule's sizes (42_key_schedule.md R151 to R154). -/

namespace Sys2Proof.Machine

@[simp] theorem zeros_length (n : Nat) : (zeros n).length = n := List.length_replicate

theorem padKey_length (key : List Byte) : (padKey key).length = 4 * keyWords key := by
  simp only [padKey, keyWords, List.length_append, zeros_length]; omega

theorem keyWords_eq (key : List Byte) : keyWords key = (key.length + 3) / 4 := by
  simp only [padKey, keyWords, List.length_append, zeros_length]; omega

@[simp] theorem arithSeq_length (s0 : Word) (n : Nat) : (arithSeq s0 n).length = n := by
  induction n generalizing s0 with
  | zero => rfl
  | succ n ih => simp [arithSeq, ih]

@[simp] theorem mixIter_s_length (c : Nat) (m : MixRegs) : (mixIter c m).s.length = m.s.length := by
  simp [mixIter]

theorem mixLoop_s_length (c n : Nat) (m : MixRegs) : (mixLoop c n m).s.length = m.s.length := by
  induction n generalizing m with
  | zero => rfl
  | succ n ih => rw [mixLoop, ih, mixIter_s_length]

/-- S has T_SUB = 44 words. -/
@[simp] theorem keySchedule_length (key : List Byte) : (keySchedule key).length = 44 := by
  rw [keySchedule, mixKey, mixLoop_s_length]
  exact arithSeq_length p32 44

end Sys2Proof.Machine
end

