-- ==== Sys2Proof/Laws/Framer.lean ====
section
/-! SUPPORT. The padder, the depadder's scan and the block scheduler (44_message_framer.md R191 to R203). -/

namespace Sys2Proof.Machine

theorem pad_length (m : List Byte) : (pad m).length = 16 * (m.length / 16 + 1) := by
  simp only [pad, padLen, List.length_append, List.length_cons, zeros_length]; omega

/-- The padded message has `len / 16 + 1` blocks. -/
theorem pad_blocks (m : List Byte) : (pad m).length / 16 = m.length / 16 + 1 := by rw [pad_length]; omega

/-- The padded bytes: the message, then the marker, then zeros. -/
theorem pad_getD (m : List Byte) (i : Nat) :
    (pad m).getD i 0 = if i < m.length then m.getD i 0 else if i = m.length then padMarker else 0 := by
  simp only [pad, List.getD_eq_getElem?_getD]
  split
  · rw [List.getElem?_append_left ‹_›]
  · rw [List.getElem?_append_right (by omega)]
    split
    · subst i; simp
    · rw [show i - m.length = (i - m.length - 1) + 1 by omega, List.getElem?_cons_succ, zeros, List.getElem?_replicate]
      split <;> simp

/-- The scan stops at the last byte below `n` that is not zero. -/
theorem unpadScan_found (p : List Byte) :
    ∀ {n k : Nat}, k < n → p.getD k 0 ≠ 0 → (∀ j, k < j → j < n → p.getD j 0 = 0) →
      unpadScan p n = .found k (p.getD k 0)
  | 0, _, hk, _, _ => absurd hk (by omega)
  | n + 1, k, hk, hne, hz => by
    rw [unpadScan]
    by_cases h : k = n
    · subst h; rw [if_neg hne]
    · rw [if_pos (hz n (by omega) (by omega))]
      exact unpadScan_found p (by omega) hne fun j h1 h2 => hz j h1 (by omega)

/-- The scan finds nothing when every byte below `n` is zero. -/
theorem unpadScan_notFound (p : List Byte) :
    ∀ {n : Nat}, (∀ j, j < n → p.getD j 0 = 0) → unpadScan p n = .notFound
  | 0, _ => rfl
  | n + 1, hz => by
    rw [unpadScan, if_pos (hz n (by omega))]
    exact unpadScan_notFound p fun j h => hz j (by omega)

/-- The scan ends in one of its two ways. -/
theorem unpadScan_cases (p : List Byte) (n : Nat) :
    (∃ k, k < n ∧ p.getD k 0 ≠ 0 ∧ (∀ j, k < j → j < n → p.getD j 0 = 0) ∧
      unpadScan p n = .found k (p.getD k 0)) ∨
    ((∀ j, j < n → p.getD j 0 = 0) ∧ unpadScan p n = .notFound) := by
  induction n with
  | zero => exact .inr ⟨fun j h => absurd h (by omega), rfl⟩
  | succ n ih =>
    by_cases h : p.getD n 0 = 0
    · rw [unpadScan, if_pos h]
      rcases ih with ⟨k, hk, hne, hz, e⟩ | ⟨hz, e⟩
      · refine .inl ⟨k, by omega, hne, fun j h1 h2 => ?_, e⟩
        by_cases hj : j = n
        · rw [hj]; exact h
        · exact hz j h1 (by omega)
      · refine .inr ⟨fun j h2 => ?_, e⟩
        by_cases hj : j = n
        · rw [hj]; exact h
        · exact hz j (by omega)
    · refine .inl ⟨n, by omega, h, fun j h1 h2 => absurd h2 (by omega), ?_⟩
      rw [unpadScan, if_neg h]

/-- A depadder that finds a marker finds it inside the input. -/
theorem unpad_found_lt {p : List Byte} {k : Nat} {mk : Byte} (h : unpad p = .found k mk) : k < p.length := by
  rcases unpadScan_cases p p.length with ⟨k', hk, -, -, e⟩ | ⟨-, e⟩
  · rw [unpad, e] at h; injection h with h1; omega
  · rw [unpad, e] at h; cases h

/-! The block scheduler. -/

theorem blockAt_length {p : List Byte} {k : Nat} (h : 16 * k + 16 ≤ p.length) : (blockAt p k).length = 16 := by
  simp only [blockAt, List.length_take, List.length_drop]; omega

theorem mapBlocks_succ (g : List Byte → List Byte) (p : List Byte) (n : Nat) :
    mapBlocks g p (n + 1) = mapBlocks g p n ++ g (blockAt p n) := by
  simp [mapBlocks, List.range_succ]

theorem mapBlocks_length {g : List Byte → List Byte} (hg : ∀ b, (g b).length = 16) (p : List Byte) (n : Nat) :
    (mapBlocks g p n).length = 16 * n := by
  induction n with
  | zero => rfl
  | succ n ih => rw [mapBlocks_succ, List.length_append, ih, hg]; omega

/-- Block `k` of the output is the transform of block `k` of the input. -/
theorem blockAt_mapBlocks {g : List Byte → List Byte} (hg : ∀ b, (g b).length = 16) (p : List Byte) {n k : Nat}
    (hk : k < n) : blockAt (mapBlocks g p n) k = g (blockAt p k) := by
  induction n with
  | zero => omega
  | succ n ih =>
    have hl := mapBlocks_length hg p n
    rw [mapBlocks_succ]
    by_cases h : k = n
    · subst h
      rw [blockAt, List.drop_append_of_le_length (by omega), List.drop_of_length_le (by omega), List.nil_append,
        List.take_of_length_le (by rw [hg])]
    · rw [← ih (by omega), blockAt, List.drop_append_of_le_length (by omega),
        List.take_append_of_le_length (by rw [List.length_drop]; omega)]
      rfl

/-- Joining the blocks of a sequence of whole blocks gives it back. -/
theorem mapBlocks_id (p : List Byte) {n : Nat} (h : 16 * n ≤ p.length) :
    mapBlocks (fun b => b) p n = p.take (16 * n) := by
  induction n with
  | zero => rfl
  | succ n ih =>
    rw [mapBlocks_succ, ih (by omega), blockAt, show 16 * (n + 1) = 16 * n + 16 by omega, List.take_add]

theorem mapBlocks_congr {g h : List Byte → List Byte} {p q : List Byte} {n : Nat}
    (e : ∀ k, k < n → g (blockAt p k) = h (blockAt q k)) : mapBlocks g p n = mapBlocks h q n := by
  induction n with
  | zero => rfl
  | succ n ih => rw [mapBlocks_succ, mapBlocks_succ, ih fun k hk => e k (by omega), e n (by omega)]

theorem encryptMessage_length (key m : List Byte) : (encryptMessage key m).length = (pad m).length := by
  rw [encryptMessage, mapBlocks_length fun b => encryptBlock_length b _, pad_blocks, pad_length]

theorem decryptMessage_length (key : List Byte) {ct : List Byte} (h : ct.length % 16 = 0) :
    (decryptMessage key ct).length = ct.length := by
  rw [decryptMessage, mapBlocks_length fun b => decryptBlock_length b _]; omega

end Sys2Proof.Machine
end

