-- ==== Sys2Proof/Laws/Commands.lean ====
section
/-! SUPPORT. What a command's completion can do: its outcome and updates, and what they leave alone
(40_command_protocol.md R113, 60_exceptions.md R224). -/

namespace Sys2Proof.Machine

/-- What each command's `exec_X` returns. -/
def commandResult (i : Instr) (s : State) : CmdResult :=
  match i with
  | .nop => nopResult s
  | .keysched => keyschedResult s
  | .encb => encbResult s
  | .decb => decbResult s
  | .pad => padResult s
  | .unpad => unpadResult s
  | .encm => encmResult s
  | .decm => decmResult s
  | .illegal w => illegalResult w s

/-- Every command's completion is the one shared completion of what its `exec_X` returns. -/
theorem exec_eq (i : Instr) (s : State) :
    exec i s = .next (finish (applyUpdates s (commandResult i s).updates) (commandResult i s).outcome) := by
  cases i <;> rfl

/-- A completion answers `next t` for exactly one `t`. -/
theorem exec_next {i : Instr} {s t : State} (h : exec i s = .next t) :
    t = finish (applyUpdates s (commandResult i s).updates) (commandResult i s).outcome := by
  rw [exec_eq] at h; exact (Host.Outcome.next.inj h).symm

/-! Checks. -/

theorem checked_ok {cs : List (Option ErrorCode)} {r : CmdResult} (h : firstError cs = none) : checked cs r = r := by
  rw [checked, h]

theorem checked_error {cs : List (Option ErrorCode)} {r : CmdResult} {e : ErrorCode} (h : firstError cs = some e) :
    checked cs r = CmdResult.checkError e := by rw [checked, h]

/-- A command with checks ends in one of two ways. -/
theorem checked_cases (cs : List (Option ErrorCode)) (r : CmdResult) :
    (∃ e, firstError cs = some e ∧ checked cs r = CmdResult.checkError e) ∨ (firstError cs = none ∧ checked cs r = r) := by
  cases h : firstError cs with
  | none => exact .inr ⟨rfl, checked_ok h⟩
  | some e => exact .inl ⟨e, rfl, checked_error h⟩

theorem keyCheck_none {s : State} : keyCheck s = none ↔ 1 ≤ s.keylen.toNat ∧ s.keylen.toNat ≤ 256 := by
  grind [keyCheck, klen, Config.keyBytesMax]

theorem encLengthCheck_none {s : State} : encLengthCheck s = none ↔ s.msglen.toNat ≤ 4095 := by
  grind [encLengthCheck, mlen, Config.encMsgMax, Config.bufBytes]

theorem decLengthCheck_none {s : State} :
    decLengthCheck s = none ↔ s.msglen.toNat ≠ 0 ∧ s.msglen.toNat % 16 = 0 ∧ s.msglen.toNat ≤ 4096 := by
  grind [decLengthCheck, mlen, Config.decMsgMax, Config.bufBytes]

theorem keyValidCheck_none {s : State} : keyValidCheck s = none ↔ s.status.keyv = true := by
  grind [keyValidCheck]

/-- The state a failed check leaves, by its code (R224). -/
theorem finish_checkError (s : State) (e : ErrorCode) :
    finish (applyUpdates s (CmdResult.checkError e).updates) (CmdResult.checkError e).outcome =
      failedWith s (errorNumber e) := rfl

/-! What each command with checks returns when they pass. -/

theorem keysched_ok {s : State} (h : keyCheck s = none) :
    commandResult .keysched s = { outcome := none, updates := commitSubkeys (keyBytes s) } :=
  checked_ok (by rw [h]; rfl)

theorem encb_ok {s : State} (h : s.status.keyv = true) :
    commandResult .encb s =
      { outcome := none
        updates :=
          [ .memWrite .blkout 0 (encryptBlock (blkinBytes s) (subkeys s)),
            .blockRegs (encryptRegs (blkinBytes s) (subkeys s)) ] } :=
  checked_ok (by rw [keyValidCheck_none.mpr h]; rfl)

theorem decb_ok {s : State} (h : s.status.keyv = true) :
    commandResult .decb s =
      { outcome := none
        updates :=
          [ .memWrite .blkout 0 (decryptBlock (blkinBytes s) (subkeys s)),
            .blockRegs (decryptRegs (blkinBytes s) (subkeys s)) ] } :=
  checked_ok (by rw [keyValidCheck_none.mpr h]; rfl)

theorem pad_ok {s : State} (h : encLengthCheck s = none) :
    commandResult .pad s =
      { outcome := none
        updates := [.memWrite .msgout 0 (pad (msgBytes s)), .outlen (pad (msgBytes s)).length] } :=
  checked_ok (by rw [h]; rfl)

theorem unpad_ok {s : State} (h : decLengthCheck s = none) :
    commandResult .unpad s =
      { outcome := depadOutcome (unpad (msgBytes s))
        updates := .memWrite .msgout 0 (msgBytes s) :: depadUpdates (mlen s) (unpad (msgBytes s)) } :=
  checked_ok (by rw [h]; rfl)

theorem encm_ok {s : State} (hk : keyCheck s = none) (h : encLengthCheck s = none) :
    commandResult .encm s = { outcome := none, updates := encmUpdates (keyBytes s) (msgBytes s) } :=
  checked_ok (by rw [hk, h]; rfl)

theorem decm_ok {s : State} (hk : keyCheck s = none) (h : decLengthCheck s = none) :
    commandResult .decm s =
      { outcome := depadOutcome (unpad (decryptMessage (keyBytes s) (msgBytes s)))
        updates := decmUpdates (keyBytes s) (msgBytes s) } :=
  checked_ok (by rw [hk, h]; rfl)

/-- The codes a length check can end with (R221). -/
theorem keyCheck_some {s : State} {e : ErrorCode} (h : keyCheck s = some e) : e = .invalidKey ∨ e = .lengthRange := by
  grind [keyCheck]

theorem encLengthCheck_some {s : State} {e : ErrorCode} (h : encLengthCheck s = some e) : e = .lengthRange := by
  grind [encLengthCheck]

theorem decLengthCheck_some {s : State} {e : ErrorCode} (h : decLengthCheck s = some e) :
    e = .invalidInputLength ∨ e = .lengthRange := by
  grind [decLengthCheck]

theorem keyValidCheck_some {s : State} {e : ErrorCode} (h : keyValidCheck s = some e) : e = .keyNotScheduled := by
  grind [keyValidCheck]

/-! What an update leaves alone. -/

/-- The bytes an update writes: none but those of `memWrite`. -/
def Update.touches (u : Update) (a : Nat) : Prop :=
  match u with
  | .memWrite b k v => bufBase b + k ≤ a ∧ a < bufBase b + k + v.length
  | .keyValid => False
  | .outlen _ => False
  | .marker _ => False
  | .padwarn _ => False
  | .scheduleRegs _ _ => False
  | .blockRegs _ => False
  | .blockIndex _ => False
  | .scanIndex _ => False

/-- The registers no update reaches. -/
theorem applyUpdate_fixed (s : State) (u : Update) :
    (applyUpdate s u).irqen = s.irqen ∧ (applyUpdate s u).keylen = s.keylen ∧ (applyUpdate s u).msglen = s.msglen ∧
    (applyUpdate s u).opw = s.opw ∧ (applyUpdate s u).phase = s.phase ∧ (applyUpdate s u).inputs = s.inputs ∧
    (applyUpdate s u).resp = s.resp ∧ (applyUpdate s u).resets = s.resets ∧
    (applyUpdate s u).status.busy = s.status.busy ∧ (applyUpdate s u).status.done = s.status.done ∧
    (applyUpdate s u).status.err = s.status.err ∧ (applyUpdate s u).status.errcode = s.status.errcode := by
  cases u <;> simp

theorem applyUpdates_fixed (us : List Update) (s : State) :
    (applyUpdates s us).irqen = s.irqen ∧ (applyUpdates s us).keylen = s.keylen ∧
    (applyUpdates s us).msglen = s.msglen ∧ (applyUpdates s us).opw = s.opw ∧ (applyUpdates s us).phase = s.phase ∧
    (applyUpdates s us).inputs = s.inputs ∧ (applyUpdates s us).resp = s.resp ∧
    (applyUpdates s us).resets = s.resets ∧ (applyUpdates s us).status.busy = s.status.busy ∧
    (applyUpdates s us).status.done = s.status.done ∧ (applyUpdates s us).status.err = s.status.err ∧
    (applyUpdates s us).status.errcode = s.status.errcode := by
  induction us generalizing s with
  | nil => simp [applyUpdates]
  | cons u us ih =>
    have h := ih (applyUpdate s u)
    have h1 := applyUpdate_fixed s u
    simp only [applyUpdates, List.foldl_cons] at h ⊢
    grind

theorem readByte_applyUpdate {s : State} {u : Update} {a : Nat} (h : ¬ u.touches a) :
    readByte (applyUpdate s u) a = readByte s a := by
  cases u with
  | memWrite b k v => exact (readByte_memWrite s b k v a).trans (if_neg h)
  | _ => rfl

/-- A byte that no update of a list writes reads as before. -/
theorem readByte_applyUpdates {us : List Update} {s : State} {a : Nat} (h : ∀ u ∈ us, ¬ u.touches a) :
    readByte (applyUpdates s us) a = readByte s a := by
  induction us generalizing s with
  | nil => rfl
  | cons u us ih =>
    simp only [applyUpdates, List.foldl_cons]
    exact (ih fun v hv => h v (List.mem_cons_of_mem _ hv)).trans (readByte_applyUpdate (h u List.mem_cons_self))

@[simp] theorem readByte_finish (s : State) (o : Option ErrorCode) (a : Nat) :
    readByte (finish s o) a = readByte s a := rfl

@[simp] theorem readBytes_finish (s : State) (o : Option ErrorCode) (a n : Nat) :
    readBytes (finish s o) a n = readBytes s a n := readBytes_congr fun _ _ => rfl

@[simp] theorem memRead_finish (s : State) (o : Option ErrorCode) (b : Buffer) (k n : Nat) :
    memRead (finish s o) b k n = memRead s b k n := readBytes_finish ..

theorem applyUpdates_cons (s : State) (u : Update) (us : List Update) :
    applyUpdates s (u :: us) = applyUpdates (applyUpdate s u) us := rfl

@[simp] theorem applyUpdates_nil (s : State) : applyUpdates s [] = s := rfl

theorem applyUpdates_append (s : State) (us vs : List Update) :
    applyUpdates s (us ++ vs) = applyUpdates (applyUpdates s us) vs := List.foldl_append ..

/-! Memory after a completion: only the `memWrite` updates reach it. -/

/-- The memory writes of a list of updates, in order. -/
def writesOf : List Update → List (Buffer × Nat × List Byte)
  | [] => []
  | .memWrite b k v :: us => (b, k, v) :: writesOf us
  | .keyValid :: us => writesOf us
  | .outlen _ :: us => writesOf us
  | .marker _ :: us => writesOf us
  | .padwarn _ :: us => writesOf us
  | .scheduleRegs _ _ :: us => writesOf us
  | .blockRegs _ :: us => writesOf us
  | .blockIndex _ :: us => writesOf us
  | .scanIndex _ :: us => writesOf us

theorem applyUpdates_mem (us : List Update) (s : State) :
    (applyUpdates s us).mem =
      (writesOf us).foldl (fun m w => Memory.storeBytes m (bufBase w.1 + w.2.1) w.2.2) s.mem := by
  induction us generalizing s with
  | nil => rfl
  | cons u us ih => rw [applyUpdates_cons, ih]; cases u <;> rfl

theorem applyUpdates_resets (us : List Update) (s : State) : (applyUpdates s us).resets = s.resets :=
  (applyUpdates_fixed us s).2.2.2.2.2.2.2.1

/-- What is read after a completion that writes one buffer range. -/
theorem memRead_of_one {us : List Update} {s : State} {b : Buffer} {k : Nat} {v : List Byte} (o : Option ErrorCode)
    (h : writesOf us = [(b, k, v)]) (b' : Buffer) (k' n : Nat) :
    memRead (finish (applyUpdates s us) o) b' k' n = memRead (memWrite s b k v) b' k' n :=
  memRead_of_mem (by rw [finish_mem, applyUpdates_mem, h]; rfl) (by rw [finish_resets, applyUpdates_resets]; rfl) ..

theorem readByte_of_one {us : List Update} {s : State} {b : Buffer} {k : Nat} {v : List Byte} (o : Option ErrorCode)
    (h : writesOf us = [(b, k, v)]) (a : Nat) :
    readByte (finish (applyUpdates s us) o) a = readByte (memWrite s b k v) a :=
  readByte_of_mem (by rw [finish_mem, applyUpdates_mem, h]; rfl) (by rw [finish_resets, applyUpdates_resets]; rfl) ..

/-- What is read after a completion that writes two buffer ranges. -/
theorem memRead_of_two {us : List Update} {s : State} {b c : Buffer} {k l : Nat} {v w : List Byte}
    (o : Option ErrorCode) (h : writesOf us = [(b, k, v), (c, l, w)]) (b' : Buffer) (k' n : Nat) :
    memRead (finish (applyUpdates s us) o) b' k' n = memRead (memWrite (memWrite s b k v) c l w) b' k' n :=
  memRead_of_mem (by rw [finish_mem, applyUpdates_mem, h]; rfl) (by rw [finish_resets, applyUpdates_resets]; rfl) ..

theorem readByte_of_two {us : List Update} {s : State} {b c : Buffer} {k l : Nat} {v w : List Byte}
    (o : Option ErrorCode) (h : writesOf us = [(b, k, v), (c, l, w)]) (a : Nat) :
    readByte (finish (applyUpdates s us) o) a = readByte (memWrite (memWrite s b k v) c l w) a :=
  readByte_of_mem (by rw [finish_mem, applyUpdates_mem, h]; rfl) (by rw [finish_resets, applyUpdates_resets]; rfl) ..

theorem writesOf_depadUpdates (n : Nat) (d : Depad) : writesOf (depadUpdates n d) = [] := by cases d <;> rfl

theorem writesOf_append (us vs : List Update) : writesOf (us ++ vs) = writesOf us ++ writesOf vs := by
  induction us with
  | nil => rfl
  | cons u us ih => rw [List.cons_append]; cases u <;> simp [writesOf, ih]

theorem writesOf_encm (key m : List Byte) :
    writesOf (encmUpdates key m) =
      [(.subkey, 0, wordsToBytes (keySchedule key)), (.msgout, 0, encryptMessage key m)] := rfl

theorem writesOf_decm (key ct : List Byte) :
    writesOf (decmUpdates key ct) =
      [(.subkey, 0, wordsToBytes (keySchedule key)), (.msgout, 0, decryptMessage key ct)] := by
  rw [decmUpdates, writesOf_append, writesOf_depadUpdates]; rfl

/-! The SUBKEY buffer (10_state.md R33). -/

/-- The word of SUBKEY at `4 * i` is S[i]. -/
theorem windowWord_subkey (s : State) {i : Nat} (h : i < 44) :
    windowWord s .subkey (4 * i) = (subkeys s).getD i 0 := by
  have h0 := memRead_getD s .subkey 0 176 (i := 4 * i) (by omega)
  have h1 := memRead_getD s .subkey 0 176 (i := 4 * i + 1) (by omega)
  have h2 := memRead_getD s .subkey 0 176 (i := 4 * i + 2) (by omega)
  have h3 := memRead_getD s .subkey 0 176 (i := 4 * i + 3) (by omega)
  rw [subkeys, bytesToWords_getD _ _ (by rw [memRead_length]; omega), h0, h1, h2, h3]
  rfl

/-- A written subkey array reads back as S. -/
theorem subkeys_memWrite (s : State) {S : List Word} (h : S.length = 44) :
    subkeys (memWrite s .subkey 0 (wordsToBytes S)) = S := by
  have hl : (wordsToBytes S).length = 176 := by rw [wordsToBytes_length, h]
  have hr := memRead_memWrite s .subkey 0 (wordsToBytes S)
  rw [hl] at hr
  rw [subkeys, hr, bytesToWords_wordsToBytes]

/-- A completion whose only write is a subkey array leaves S in SUBKEY. -/
theorem subkeys_of_one {us : List Update} {s : State} {S : List Word} (o : Option ErrorCode) (hS : S.length = 44)
    (h : writesOf us = [(.subkey, 0, wordsToBytes S)]) : subkeys (finish (applyUpdates s us) o) = S := by
  rw [subkeys, memRead_of_one o h]; exact subkeys_memWrite s hS

theorem subkeys_of_mem {s t : State} (hm : t.mem = s.mem) (hr : t.resets = s.resets) : subkeys t = subkeys s := by
  rw [subkeys, subkeys, memRead_of_mem hm hr]

theorem subkeys_congr {s t : State} (h : ∀ a, 0x0200 ≤ a → a < 0x02B0 → readByte t a = readByte s a) :
    subkeys t = subkeys s := by
  rw [subkeys, subkeys, memRead_congr (s := s) (t := t) fun a h1 h2 => h a h1 h2]

/-- What holds the words of S holds S. -/
theorem holdsWords_subkeys {s : State} {S : List Word} (hl : S.length = 44) (h : subkeys s = S) :
    HoldsWords s .subkey S := by
  intro i hi
  rw [hl] at hi
  rw [windowWord_subkey s hi, h]

/-! After a completion that writes the subkey array and then MSGOUT (ENCM and DECM). -/

theorem holdsWords_of_two {us : List Update} {s : State} {S : List Word} {v : List Byte} (o : Option ErrorCode)
    (hS : S.length = 44) (h : writesOf us = [(.subkey, 0, wordsToBytes S), (.msgout, 0, v)]) :
    HoldsWords (finish (applyUpdates s us) o) .subkey S := by
  apply holdsWords_subkeys hS
  rw [subkeys, memRead_of_two o h, memRead_congr (s := memWrite s .subkey 0 (wordsToBytes S))]
  · exact subkeys_memWrite s hS
  · intro a h1 h2
    refine (readByte_memWrite ..).trans (if_neg ?_)
    simp [bufBase] at *; omega

/-- A part of the bytes written to MSGOUT reads back. -/
theorem memRead_msgout_of_two {us : List Update} {s : State} {S : List Word} {v : List Byte} (o : Option ErrorCode)
    (h : writesOf us = [(.subkey, 0, wordsToBytes S), (.msgout, 0, v)]) {i n : Nat} (hi : i + n ≤ v.length) :
    memRead (finish (applyUpdates s us) o) .msgout i n = (v.drop i).take n := by
  rw [memRead_of_two o h]; exact memRead_memWrite_part _ _ _ hi

/-- Every byte outside SUBKEY and the bytes written to MSGOUT reads as before. -/
theorem readByte_outside_two {us : List Update} {s : State} {S : List Word} {v : List Byte} (o : Option ErrorCode)
    (hS : S.length = 44) (h : writesOf us = [(.subkey, 0, wordsToBytes S), (.msgout, 0, v)]) {a : Nat}
    (h1 : ¬ (bufBase .msgout ≤ a ∧ a < bufBase .msgout + v.length))
    (h2 : ¬ (bufBase .subkey ≤ a ∧ a < bufBase .subkey + 176)) :
    readByte (finish (applyUpdates s us) o) a = readByte s a := by
  rw [readByte_of_two o h]
  refine ((readByte_memWrite ..).trans (if_neg ?_)).trans ((readByte_memWrite ..).trans (if_neg ?_))
  · simpa using h1
  · rw [wordsToBytes_length, hS]; simpa using h2

/-! The depadder's report at the end of a list of updates (44_message_framer.md R195). -/

theorem finish_depad_found (us : List Update) (s : State) (n k : Nat) (mk : Byte) :
    (finish (applyUpdates s (us ++ depadUpdates n (.found k mk))) none).outlen = BitVec.ofNat 13 k ∧
    (finish (applyUpdates s (us ++ depadUpdates n (.found k mk))) none).marker = mk ∧
    (finish (applyUpdates s (us ++ depadUpdates n (.found k mk))) none).status =
      { (applyUpdates s us).status with padwarn := padwarnOf n k mk, done := true, busy := false } := by
  rw [applyUpdates_append]; exact ⟨rfl, rfl, rfl⟩

theorem finish_depad_notFound (us : List Update) (s : State) (n : Nat) :
    (finish (applyUpdates s (us ++ depadUpdates n .notFound)) (some .paddingNotFound)).outlen = 0 ∧
    (finish (applyUpdates s (us ++ depadUpdates n .notFound)) (some .paddingNotFound)).marker = 0 ∧
    (finish (applyUpdates s (us ++ depadUpdates n .notFound)) (some .paddingNotFound)).status =
      { (applyUpdates s us).status with err := true, errcode := 5, done := true, busy := false } := by
  rw [applyUpdates_append]; exact ⟨rfl, rfl, rfl⟩

/-- Byte `k` of the input message. -/
theorem msgBytes_getD (s : State) {k : Nat} (h : k < s.msglen.toNat) :
    (msgBytes s).getD k 0 = readByte s (0x1000 + k) := memRead_getD s .msgin 0 (mlen s) h

end Sys2Proof.Machine
end

