-- ==== Sys2Proof/Laws/Step.lean ====
section
/-! SUPPORT. What one move, and so one step, can do (00_scope.md R5, 40_command_protocol.md R112). -/

namespace Sys2Proof.Machine

/-- A step is the engine's step when no move is left. -/
theorem step_of_nil {s : State} (h : s.inputs = []) : step s = engineStep s := by rw [step, nextMove, h]

/-- A step is the next move of the list, at the state whose list has lost it. -/
theorem step_of_cons {s : State} {e : Event} {rest : List Event} (h : s.inputs = e :: rest) :
    step s = move e { s with inputs := rest } := by rw [step, nextMove, h]

theorem engineStep_idle {s : State} (h : s.phase = .idle) : engineStep s = .next s := by rw [engineStep, h]

theorem engineStep_running {s : State} (h : s.phase = .running) : engineStep s = exec (decode s.opw) s := by
  rw [engineStep, h]

/-- The engine's step always answers, and leaves the engine idle. -/
theorem engineStep_next (s : State) : ∃ t, engineStep s = .next t ∧ t.phase = .idle := by
  cases h : s.phase with
  | idle => exact ⟨s, engineStep_idle h, h⟩
  | running => exact ⟨_, (engineStep_running h).trans (exec_eq _ _), rfl⟩

/-- Every move answers a next state. -/
theorem move_next (e : Event) (s : State) : ∃ t, move e s = .next t := by
  cases e with
  | hostRead a => exact ⟨_, rfl⟩
  | hostWrite a v => exact ⟨_, rfl⟩
  | engine => exact (engineStep_next s).imp fun _ h => h.1
  | reset => exact ⟨_, rfl⟩

/-- A host write leaves the moves still to come alone. -/
theorem busWrite_inputs (s : State) (a : Addr) (v : Word) : (busWrite s a v).1.inputs = s.inputs := by
  rcases busWrite_cases s a v with h | h | h | ⟨_, _, h | h | h | ⟨b, k, _, _, _, h⟩⟩ <;> rw [h] <;> rfl

/-- No move adds to the moves still to come. -/
theorem move_inputs {e : Event} {s t : State} (h : move e s = .next t) : t.inputs = s.inputs := by
  cases e with
  | hostRead a => cases h; rfl
  | hostWrite a v => cases h; exact busWrite_inputs ..
  | engine =>
    simp only [move] at h
    cases hp : s.phase with
    | idle => rw [engineStep_idle hp] at h; cases h; rfl
    | running =>
      rw [engineStep_running hp] at h
      rw [exec_next h]
      exact (applyUpdates_fixed _ s).2.2.2.2.2.1
  | reset => cases h; rfl

/-- A run of the host's machine is one step and then the rest of the run. -/
theorem run_succ {s t : State} (k : Nat) (h : step s = .next t) :
    Host.Core.run Sys2Proof.core (k + 1) s = Host.Core.run Sys2Proof.core k t := by
  have h' : Sys2Proof.core.step s = .next t := h
  simp only [Host.Core.run, h']

@[simp] theorem completeStatus_keyv (st : Status) (o : Option ErrorCode) :
    (completeStatus st o).keyv = st.keyv := by cases o <;> rfl

@[simp] theorem completeStatus_padwarn (st : Status) (o : Option ErrorCode) :
    (completeStatus st o).padwarn = st.padwarn := by cases o <;> rfl

/-- A completion never clears KEYV. -/
theorem applyUpdates_keyv (us : List Update) {s : State} (h : s.status.keyv = true) :
    (applyUpdates s us).status.keyv = true := by
  induction us generalizing s with
  | nil => exact h
  | cons u us ih => rw [applyUpdates_cons]; apply ih; cases u <;> simp [h]

end Sys2Proof.Machine
end

