-- ==== Sys2Proof/Laws/Invariant.lean ====
section
/-! SUPPORT. Which updates a command's list can hold, and that every command and every host write keeps the invariant
of Safety (10_state.md R25, R40, 20_memory.md R66). -/

namespace Sys2Proof.Machine

/-! Which updates a command's list can hold. -/

/-- The updates that fit: a write inside its buffer, an output length of at most BUF_BYTES. -/
def Update.fits (u : Update) : Prop :=
  match u with
  | .memWrite b k v => k + v.length ≤ bufSize b
  | .keyValid => True
  | .outlen n => n ≤ Config.bufBytes
  | .marker _ => True
  | .padwarn _ => True
  | .scheduleRegs _ _ => True
  | .blockRegs _ => True
  | .blockIndex _ => True
  | .scanIndex _ => True

/-- The engine's own buffers (10_state.md R32): a command writes no other. -/
def Update.toOutput (u : Update) : Prop :=
  match u with
  | .memWrite b _ _ => bufReadOnly b = true
  | .keyValid => True
  | .outlen _ => True
  | .marker _ => True
  | .padwarn _ => True
  | .scheduleRegs _ _ => True
  | .blockRegs _ => True
  | .blockIndex _ => True
  | .scanIndex _ => True

/-- The updates of a command, whatever its checks say: none, or those of a run whose checks passed. -/
theorem commandResult_cases (i : Instr) (s : State) :
    (∃ e, commandResult i s = CmdResult.checkError e) ∨
    (i = .nop ∧ (commandResult i s).updates = []) ∨
    (i = .keysched ∧ keyCheck s = none ∧ (commandResult i s).updates = commitSubkeys (keyBytes s)) ∨
    ((i = .encb ∨ i = .decb) ∧ ∃ blk r, blk.length = 16 ∧
      (commandResult i s).updates = [.memWrite .blkout 0 blk, .blockRegs r]) ∨
    (i = .pad ∧ encLengthCheck s = none ∧
      (commandResult i s).updates = [.memWrite .msgout 0 (pad (msgBytes s)), .outlen (pad (msgBytes s)).length]) ∨
    (i = .unpad ∧ decLengthCheck s = none ∧
      (commandResult i s).updates = .memWrite .msgout 0 (msgBytes s) :: depadUpdates (mlen s) (unpad (msgBytes s))) ∨
    (i = .encm ∧ keyCheck s = none ∧ encLengthCheck s = none ∧
      (commandResult i s).updates = encmUpdates (keyBytes s) (msgBytes s)) ∨
    (i = .decm ∧ keyCheck s = none ∧ decLengthCheck s = none ∧
      (commandResult i s).updates = decmUpdates (keyBytes s) (msgBytes s)) := by
  cases i with
  | nop => exact .inr (.inl ⟨rfl, rfl⟩)
  | keysched =>
    rcases h : keyCheck s with _ | e
    · exact .inr (.inr (.inl ⟨rfl, rfl, by rw [keysched_ok h]⟩))
    · exact .inl ⟨e, checked_error (by rw [h]; rfl)⟩
  | encb =>
    rcases h : keyValidCheck s with _ | e
    · exact .inr (.inr (.inr (.inl ⟨.inl rfl, _, _, encryptBlock_length .., by rw [encb_ok (keyValidCheck_none.mp h)]⟩)))
    · exact .inl ⟨e, checked_error (by rw [h]; rfl)⟩
  | decb =>
    rcases h : keyValidCheck s with _ | e
    · exact .inr (.inr (.inr (.inl ⟨.inr rfl, _, _, decryptBlock_length .., by rw [decb_ok (keyValidCheck_none.mp h)]⟩)))
    · exact .inl ⟨e, checked_error (by rw [h]; rfl)⟩
  | pad =>
    rcases h : encLengthCheck s with _ | e
    · exact .inr (.inr (.inr (.inr (.inl ⟨rfl, rfl, by rw [pad_ok h]⟩))))
    · exact .inl ⟨e, checked_error (by rw [h]; rfl)⟩
  | unpad =>
    rcases h : decLengthCheck s with _ | e
    · exact .inr (.inr (.inr (.inr (.inr (.inl ⟨rfl, rfl, by rw [unpad_ok h]⟩)))))
    · exact .inl ⟨e, checked_error (by rw [h]; rfl)⟩
  | encm =>
    rcases hk : keyCheck s with _ | e
    · rcases h : encLengthCheck s with _ | e
      · exact .inr (.inr (.inr (.inr (.inr (.inr (.inl ⟨rfl, rfl, rfl, by rw [encm_ok hk h]⟩))))))
      · exact .inl ⟨e, checked_error (by rw [hk, h]; rfl)⟩
    · exact .inl ⟨e, checked_error (by rw [hk]; rfl)⟩
  | decm =>
    rcases hk : keyCheck s with _ | e
    · rcases h : decLengthCheck s with _ | e
      · exact .inr (.inr (.inr (.inr (.inr (.inr (.inr ⟨rfl, rfl, rfl, by rw [decm_ok hk h]⟩))))))
      · exact .inl ⟨e, checked_error (by rw [hk, h]; rfl)⟩
    · exact .inl ⟨e, checked_error (by rw [hk]; rfl)⟩
  | illegal w => exact .inl ⟨_, rfl⟩

theorem msgBytes_length (s : State) : (msgBytes s).length = s.msglen.toNat := memRead_length ..

theorem commitSubkeys_good (key : List Byte) : ∀ u ∈ commitSubkeys key, u.fits ∧ u.toOutput := by
  simp [commitSubkeys, Update.fits, Update.toOutput, bufSize, bufReadOnly]

theorem depadUpdates_good (n : Nat) {p : List Byte} (hp : p.length ≤ 4096) :
    ∀ u ∈ depadUpdates n (unpad p), u.fits ∧ u.toOutput := by
  cases h : unpad p with
  | found k mk =>
    have := unpad_found_lt h
    simp [depadUpdates, Update.fits, Update.toOutput, Config.bufBytes]; omega
  | notFound => simp [depadUpdates, Update.fits, Update.toOutput, Config.bufBytes]

/-- Every update of every command fits and reaches the engine's output buffers alone. -/
theorem commandResult_good (i : Instr) (s : State) : ∀ u ∈ (commandResult i s).updates, u.fits ∧ u.toOutput := by
  have hm := msgBytes_length s
  rcases commandResult_cases i s with ⟨e, h⟩ | ⟨-, h⟩ | ⟨-, -, h⟩ | ⟨-, blk, r, hl, h⟩ | ⟨-, hc, h⟩ | ⟨-, hc, h⟩ |
    ⟨-, -, hc, h⟩ | ⟨-, -, hc, h⟩ <;> rw [h]
  · simp [CmdResult.checkError]
  · simp
  · exact commitSubkeys_good _
  · simp [Update.fits, Update.toOutput, bufSize, bufReadOnly, hl]
  · have := pad_length (msgBytes s)
    have := encLengthCheck_none.mp hc
    simp [Update.fits, Update.toOutput, bufSize, bufReadOnly, Config.bufBytes]; omega
  · have := decLengthCheck_none.mp hc
    intro u hu
    rcases List.mem_cons.mp hu with rfl | hu
    · simp [Update.fits, Update.toOutput, bufSize, bufReadOnly]; omega
    · exact depadUpdates_good _ (by omega) u hu
  · have hp := pad_length (msgBytes s)
    have he := encryptMessage_length (keyBytes s) (msgBytes s)
    have := encLengthCheck_none.mp hc
    intro u hu
    rcases List.mem_append.mp hu with hu | hu
    · exact commitSubkeys_good _ u hu
    · generalize encryptMessage (keyBytes s) (msgBytes s) = E at *
      generalize keySchedule (keyBytes s) = S at *
      simp only [List.mem_cons, List.not_mem_nil, or_false] at hu
      rcases hu with rfl | rfl | rfl | rfl
      · exact ⟨show 0 + E.length ≤ 4096 by omega, rfl⟩
      · exact ⟨show (pad (msgBytes s)).length ≤ 4096 by omega, trivial⟩
      · exact ⟨trivial, trivial⟩
      · exact ⟨trivial, trivial⟩
  · have := decLengthCheck_none.mp hc
    have hd := decryptMessage_length (keyBytes s) (ct := msgBytes s) (by omega)
    intro u hu
    rw [decmUpdates] at hu
    simp only [List.mem_append] at hu
    rcases hu with (hu | hu) | hu
    · exact commitSubkeys_good _ u hu
    · generalize decryptMessage (keyBytes s) (msgBytes s) = E at *
      generalize keySchedule (keyBytes s) = S at *
      simp only [List.mem_cons, List.not_mem_nil, or_false] at hu
      rcases hu with rfl | rfl | rfl
      · exact ⟨show 0 + E.length ≤ 4096 by omega, rfl⟩
      · exact ⟨trivial, trivial⟩
      · exact ⟨trivial, trivial⟩
    · exact depadUpdates_good _ (by omega) u hu

/-- The updates that reach SUBKEY or KEYV. -/
def Update.rekeys (u : Update) : Prop :=
  match u with
  | .memWrite b _ _ => b = .subkey
  | .keyValid => True
  | .outlen _ => False
  | .marker _ => False
  | .padwarn _ => False
  | .scheduleRegs _ _ => False
  | .blockRegs _ => False
  | .blockIndex _ => False
  | .scanIndex _ => False

theorem depadUpdates_not_rekeys (n : Nat) (d : Depad) : ∀ u ∈ depadUpdates n d, ¬ u.rekeys := by
  cases d <;> simp [depadUpdates, Update.rekeys]

/-- A command either leaves SUBKEY and KEYV alone, or is a KEYSCHED, ENCM or DECM that writes a whole subkey array
first. -/
theorem commandResult_rekeys (i : Instr) (s : State) :
    (∀ u ∈ (commandResult i s).updates, ¬ u.rekeys) ∨
    ((i = .keysched ∨ i = .encm ∨ i = .decm) ∧
      ∃ key rest, (commandResult i s).updates = commitSubkeys key ++ rest) := by
  rcases commandResult_cases i s with ⟨e, h⟩ | ⟨-, h⟩ | ⟨hi, -, h⟩ | ⟨-, blk, r, hl, h⟩ | ⟨-, hc, h⟩ | ⟨-, hc, h⟩ |
    ⟨hi, -, hc, h⟩ | ⟨hi, -, hc, h⟩ <;> rw [h]
  · exact .inl (by simp [CmdResult.checkError])
  · exact .inl (by simp)
  · exact .inr ⟨.inl hi, keyBytes s, [], (List.append_nil _).symm⟩
  · exact .inl (by simp [Update.rekeys])
  · exact .inl (by simp [Update.rekeys])
  · refine .inl fun u hu => ?_
    rcases List.mem_cons.mp hu with rfl | hu
    · simp [Update.rekeys]
    · exact depadUpdates_not_rekeys _ _ u hu
  · exact .inr ⟨.inr (.inl hi), _, _, rfl⟩
  · exact .inr ⟨.inr (.inr hi), _, _, by rw [decmUpdates, List.append_assoc]⟩

/-! Invariants along a list of updates. -/

theorem inWindow_isBufferAddr {b : Buffer} {a : Nat} (h : inWindow b a = true) : isBufferAddr a = true := by
  cases b <;> simp [isBufferAddr, h]

theorem storeBytes_memInv {m : Memory} {b : Buffer} {k : Nat} {v : List Byte} (h : MemInv m)
    (hv : k + v.length ≤ bufSize b) : MemInv (Memory.storeBytes m (bufBase b + k) v) := by
  refine ⟨storeBytes_wf _ _ h.1, fun c hc => ?_⟩
  rcases mem_storeBytes _ hc with hc | hc
  · exact inWindow_isBufferAddr ((inWindow_iff b c.1).mpr (by omega))
  · exact h.2 c hc

theorem applyUpdates_memInv {us : List Update} {s : State} (h : MemInv s.mem) (hu : ∀ u ∈ us, u.fits) :
    MemInv (applyUpdates s us).mem := by
  induction us generalizing s with
  | nil => exact h
  | cons u us ih =>
    rw [applyUpdates_cons]
    refine ih ?_ fun v hv => hu v (List.mem_cons_of_mem _ hv)
    have := hu u List.mem_cons_self
    cases u with
    | memWrite b k v => exact storeBytes_memInv h this
    | _ => exact h

theorem applyUpdates_outlen {us : List Update} {s : State} (h : s.outlen.toNat ≤ Config.bufBytes)
    (hu : ∀ u ∈ us, u.fits) : (applyUpdates s us).outlen.toNat ≤ Config.bufBytes := by
  induction us generalizing s with
  | nil => exact h
  | cons u us ih =>
    rw [applyUpdates_cons]
    refine ih ?_ fun v hv => hu v (List.mem_cons_of_mem _ hv)
    have := hu u List.mem_cons_self
    cases u with
    | outlen n =>
      show (BitVec.ofNat 13 n).toNat ≤ _
      rw [BitVec.toNat_ofNat]
      exact Nat.le_trans (Nat.mod_le ..) this
    | _ => exact h

theorem applyUpdates_keyv_of {us : List Update} {s : State} (hu : ∀ u ∈ us, ¬ u.rekeys) :
    (applyUpdates s us).status.keyv = s.status.keyv := by
  induction us generalizing s with
  | nil => rfl
  | cons u us ih =>
    rw [applyUpdates_cons, ih fun v hv => hu v (List.mem_cons_of_mem _ hv)]
    have := hu u List.mem_cons_self
    cases u with
    | keyValid => exact absurd trivial this
    | _ => rfl

/-- No update removes a byte from memory. -/
theorem applyUpdates_lookup_isSome (us : List Update) {s : State} {a : Nat}
    (h : (Memory.lookup s.mem a).isSome = true) : (Memory.lookup (applyUpdates s us).mem a).isSome = true := by
  induction us generalizing s with
  | nil => exact h
  | cons u us ih =>
    rw [applyUpdates_cons]
    apply ih
    cases u with
    | memWrite b k v =>
      show (Memory.lookup (Memory.storeBytes s.mem (bufBase b + k) v) a).isSome = true
      rw [lookup_storeBytes]
      split
      · rw [List.getElem?_eq_getElem (by omega)]; rfl
      · exact h
    | _ => exact h

/-- After a commit of a subkey array every byte of SUBKEY is written. -/
theorem commitSubkeys_lookup (key : List Byte) (s : State) {a : Nat} (h : inWindow .subkey a = true) :
    (Memory.lookup (applyUpdates s (commitSubkeys key)).mem a).isSome = true := by
  have hw := (inWindow_iff .subkey a).mp h
  have hl : (wordsToBytes (keySchedule key)).length = 176 := by rw [wordsToBytes_length, keySchedule_length]
  rw [applyUpdates_mem]
  show (Memory.lookup (Memory.storeBytes s.mem (bufBase .subkey + 0) (wordsToBytes (keySchedule key))) a).isSome = true
  simp only [bufBase, bufSize] at hw ⊢
  rw [lookup_storeBytes, if_pos (by omega), List.getElem?_eq_getElem (by omega)]; rfl

/-- A byte that lies in no output buffer is as before after any command. -/
theorem exec_readByte {i : Instr} {s t : State} (h : exec i s = .next t) {a : Nat}
    (ha : ∀ b, bufReadOnly b = true → inWindow b a = false) : readByte t a = readByte s a := by
  rw [exec_next h, readByte_finish]
  refine readByte_applyUpdates fun u hu => ?_
  obtain ⟨hf, ho⟩ := commandResult_good i s u hu
  cases u with
  | memWrite b k v =>
    intro ht
    simp only [Update.touches, Update.fits, Update.toOutput] at ht hf ho
    have := ha b ho
    rw [Bool.eq_false_iff, ne_eq, inWindow_iff] at this
    omega
  | _ => exact id

/-- Every command keeps the invariant. -/
theorem exec_inv {i : Instr} {s t : State} (hs : s.Inv) (h : exec i s = .next t) : t.Inv := by
  obtain ⟨-, -, -, -, -, -, -, -, -, -, he, hc⟩ := applyUpdates_fixed (commandResult i s).updates s
  have hg := commandResult_good i s
  rw [exec_next h]
  refine ⟨?_, ?_, applyUpdates_memInv hs.mem fun u hu => (hg u hu).1, ?_,
    applyUpdates_outlen hs.outlen fun u hu => (hg u hu).1⟩
  · have hst := hs.status
    rw [finish_status]
    rcases (commandResult i s).outcome with _ | e
    · refine ⟨nofun, fun x => ?_, fun x => ?_, ?_⟩ <;> simp only [completeStatus, reportError] at *
      · rw [hc]; exact hst.errCoded (he ▸ x)
      · rw [hc]; exact hst.okUncoded (he ▸ x)
      · rw [hc]; exact hst.codeRange
    · exact ⟨nofun, fun _ => by cases e <;> simp [completeStatus, reportError, errorNumber], nofun, by
        cases e <;> simp [completeStatus, reportError, errorNumber]⟩
  · simp [PhaseInv, finish, completeStatus]
  · intro hk a ha
    rw [finish_status, completeStatus_keyv] at hk
    rw [finish_mem]
    rcases commandResult_rekeys i s with hn | ⟨-, key, rest, hr⟩
    · rw [applyUpdates_keyv_of hn] at hk
      exact applyUpdates_lookup_isSome _ (hs.subkey hk a ha)
    · rw [hr, applyUpdates_append]
      exact applyUpdates_lookup_isSome _ (commitSubkeys_lookup key s ha)

theorem clearStatus_inv {st : Status} (v : Word) (h : StatusInv st) : StatusInv (clearStatus st v) := by
  obtain ⟨h1, h2, h3, h4⟩ := h
  cases hv : v.getLsbD 2 <;> refine ⟨?_, ?_, ?_, ?_⟩ <;> simp_all [clearStatus]

theorem acceptStatus_inv (st : Status) : StatusInv (acceptStatus st) :=
  ⟨fun _ => ⟨rfl, rfl, rfl, rfl⟩, nofun, fun _ => rfl, by simp [acceptStatus]⟩

/-- Every host write keeps the invariant. -/
theorem busWrite_inv (s : State) (a : Addr) (v : Word) (hs : s.Inv) : (busWrite s a v).1.Inv := by
  have hs' := hs
  obtain ⟨h1, h2, h3, h4, h5⟩ := hs
  rcases busWrite_cases s a v with h | h | h | ⟨hb, h0, h | h | h | ⟨b, k, hr, ha, hk, h⟩⟩ <;> rw [h]
  · exact hs'
  · exact ⟨clearStatus_inv v h1, h2, h3, h4, h5⟩
  · exact ⟨h1, h2, h3, h4, h5⟩
  · exact ⟨acceptStatus_inv _, by simp [PhaseInv, acceptStatus], h3, h4, h5⟩
  · exact ⟨h1, h2, h3, h4, h5⟩
  · exact ⟨h1, h2, h3, h4, h5⟩
  · have hfit : k + (bytesOfWord v).length ≤ bufSize b := by
      rw [bytesOfWord_length]
      cases b <;> simp [bufBase, bufSize] at * <;> omega
    refine ⟨h1, h2, storeBytes_memInv h3 hfit, fun hk a ha => ?_, h5⟩
    exact applyUpdates_lookup_isSome [.memWrite b k (bytesOfWord v)] (h4 hk a ha)

/-- A state that agrees with a good one on what the invariant reads is good. -/
theorem inv_of_fields {s t : State} (hs : s.Inv) (h1 : t.status = s.status) (h2 : t.phase = s.phase)
    (h3 : t.mem = s.mem) (h4 : t.outlen = s.outlen) : t.Inv := by
  obtain ⟨a, b, c, d, e⟩ := hs
  refine ⟨h1 ▸ a, ?_, h3 ▸ c, ?_, h4 ▸ e⟩
  · rw [PhaseInv, h1, h2]; exact b
  · rw [SubkeyInv, h1, h3]; exact d

/-! What a command reads. -/

/-- Two states agree on what a command reads and on what it reports. -/
structure SameInputs (s t : State) : Prop where
  mem : t.mem = s.mem
  resets : t.resets = s.resets
  keylen : t.keylen = s.keylen
  msglen : t.msglen = s.msglen
  status : t.status = s.status
  outlen : t.outlen = s.outlen
  marker : t.marker = s.marker
  opw : t.opw = s.opw
  phase : t.phase = s.phase

/-- A command's outcome and updates depend on those fields alone. -/
theorem commandResult_congr {s t : State} (h : SameInputs s t) (i : Instr) :
    commandResult i t = commandResult i s := by
  have e1 : ∀ b k n, memRead t b k n = memRead s b k n := fun b k n => memRead_of_mem h.mem h.resets b k n
  have e2 : klen t = klen s := by rw [klen, klen, h.keylen]
  have e3 : mlen t = mlen s := by rw [mlen, mlen, h.msglen]
  have e4 : keyBytes t = keyBytes s := by rw [keyBytes, keyBytes, e1, e2]
  have e5 : msgBytes t = msgBytes s := by rw [msgBytes, msgBytes, e1, e3]
  have e6 : blkinBytes t = blkinBytes s := e1 ..
  have e7 : subkeys t = subkeys s := by rw [subkeys, subkeys, e1]
  have c1 : keyCheck t = keyCheck s := by rw [keyCheck, keyCheck, e2]
  have c2 : keyValidCheck t = keyValidCheck s := by rw [keyValidCheck, keyValidCheck, h.status]
  have c3 : encLengthCheck t = encLengthCheck s := by rw [encLengthCheck, encLengthCheck, e3]
  have c4 : decLengthCheck t = decLengthCheck s := by rw [decLengthCheck, decLengthCheck, e3]
  cases i with
  | nop => rfl
  | keysched => simp only [commandResult, keyschedResult, c1, e4]
  | encb => simp only [commandResult, encbResult, c2, e6, e7]
  | decb => simp only [commandResult, decbResult, c2, e6, e7]
  | pad => simp only [commandResult, padResult, c3, e5]
  | unpad => simp only [commandResult, unpadResult, c4, e5, e3]
  | encm => simp only [commandResult, encmResult, c1, c3, e4, e5]
  | decm => simp only [commandResult, decmResult, c1, c4, e4, e5]
  | illegal w => rfl

theorem applyUpdates_congr (us : List Update) {s t : State} (h : SameInputs s t) :
    SameInputs (applyUpdates s us) (applyUpdates t us) := by
  induction us generalizing s t with
  | nil => exact h
  | cons u us ih =>
    rw [applyUpdates_cons, applyUpdates_cons]
    apply ih
    obtain ⟨h1, h2, h3, h4, h5, h6, h7, h8, h9⟩ := h
    cases u <;> constructor <;> simp [*]

theorem SameInputs.trans {s t u : State} (h : SameInputs s t) (g : SameInputs t u) : SameInputs s u := by
  obtain ⟨h1, h2, h3, h4, h5, h6, h7, h8, h9⟩ := h
  obtain ⟨g1, g2, g3, g4, g5, g6, g7, g8, g9⟩ := g
  constructor <;> simp [*]

end Sys2Proof.Machine
end

