-- ==== Sys2Proof/Laws/PerInstr.lean ====
section
/-! SUPPORT. Facts made for each command, one lemma per constructor of `Instr`. -/

/-- Family `WordRoundTrip`: the word of a well-formed command decodes to it (30_encoding.md R92, R93). -/
def Sys2Proof.Laws.WordRoundTrip.Statement (i : Sys2Proof.Instr) : Prop :=
  i.wellFormed = true → Sys2Proof.decode (Sys2Proof.encode i) = i

namespace Sys2Proof.Laws

theorem WordRoundTrip.nop : WordRoundTrip.Statement .nop := fun _ => by decide
theorem WordRoundTrip.keysched : WordRoundTrip.Statement .keysched := fun _ => by decide
theorem WordRoundTrip.encb : WordRoundTrip.Statement .encb := fun _ => by decide
theorem WordRoundTrip.decb : WordRoundTrip.Statement .decb := fun _ => by decide
theorem WordRoundTrip.pad : WordRoundTrip.Statement .pad := fun _ => by decide
theorem WordRoundTrip.unpad : WordRoundTrip.Statement .unpad := fun _ => by decide
theorem WordRoundTrip.encm : WordRoundTrip.Statement .encm := fun _ => by decide
theorem WordRoundTrip.decm : WordRoundTrip.Statement .decm := fun _ => by decide

theorem WordRoundTrip.illegal (w : Word) : WordRoundTrip.Statement (.illegal w) := by
  intro h
  simp only [Instr.wellFormed, isIllegalWord, Bool.or_eq_true, decide_eq_true_eq] at h
  change decode w = .illegal w
  unfold decode
  by_cases hz : rsvField w = 0
  · have h16 := (Machine.rsvField_eq_zero w).mp hz
    have h8 : 8 ≤ (opcodeField w).toNat := by rw [Machine.opcodeField_toNat]; omega
    rw [if_pos hz]
    split <;> first | omega | rfl
  · rw [if_neg hz]

end Sys2Proof.Laws
end

