-- ==== Sys2Proof/Tests/Slice0.lean ====
section
/-! SUPPORT. Small tests, each with its expected values from the spec (95_test_vectors.md and the rules' own tables),
and the witnesses: for each statement with hypotheses, states and operands that meet them, at the boundary values of
its clauses. -/

namespace Sys2Proof.Tests

open Sys2Proof Sys2Proof.Machine

/-! The helpers. -/

/-- The machine after reset, with the two lengths written. -/
def withLengths (klen mlen : Nat) : State :=
  { State.reset with keylen := BitVec.ofNat 9 klen, msglen := BitVec.ofNat 13 mlen }

/-- A state with KEYV = 1. -/
def withKey (s : State) : State := { s with status := { s.status with keyv := true } }

/-- The state an outcome answers, or a given one. -/
def nextOf (o : Host.Outcome State Fault Refusal) (s : State) : State :=
  match o with
  | .next t => t
  | .fault _ => s
  | .refused _ => s

/-- The state a command leaves. -/
def after (i : Instr) (s : State) : State := nextOf (exec i s) s

theorem exec_after (i : Instr) (s : State) : exec i s = .next (after i s) := by
  rw [after, exec_eq]; rfl

theorem move_engine {s : State} (h : s.phase = .running) : move .engine s = .next (after (decode s.opw) s) :=
  (engineStep_running h).trans (exec_after ..)

/-! Which terms are well formed (30_encoding.md R93). -/

theorem test_illegal_first_command_word_ill_formed : (Instr.illegal 0x00000000).wellFormed = false := by decide
theorem test_illegal_last_command_word_ill_formed : (Instr.illegal 0x00000007).wellFormed = false := by decide
theorem test_illegal_reserved_opcodes_well_formed :
    (Instr.illegal 0x00000008).wellFormed = true ∧ (Instr.illegal 0x0000000F).wellFormed = true := by decide
theorem test_illegal_rsv_well_formed :
    (Instr.illegal 0x00000010).wellFormed = true ∧ (Instr.illegal 0x80000001).wellFormed = true := by decide

/-! Decoding: the words of the table of R92, bit by bit. -/

theorem test_decode_nop : decode 0b00000000000000000000000000000000 = .nop := by decide
theorem test_decode_keysched : decode 0b00000000000000000000000000000001 = .keysched := by decide
theorem test_decode_encb : decode 0b00000000000000000000000000000010 = .encb := by decide
theorem test_decode_decb : decode 0b00000000000000000000000000000011 = .decb := by decide
theorem test_decode_pad : decode 0b00000000000000000000000000000100 = .pad := by decide
theorem test_decode_unpad : decode 0b00000000000000000000000000000101 = .unpad := by decide
theorem test_decode_encm : decode 0b00000000000000000000000000000110 = .encm := by decide
theorem test_decode_decm : decode 0b00000000000000000000000000000111 = .decm := by decide
theorem test_decode_reserved_opcode :
    decode 0b00000000000000000000000000001000 = .illegal 0x00000008 := by decide
/-- R117: the OPCODE field of NOP, with a bit of RSV set. -/
theorem test_decode_rsv_bit : decode 0b00000000000000000000000000010000 = .illegal 0x00000010 := by decide
theorem test_decode_rsv_top : decode 0b10000000000000000000000000000111 = .illegal 0x80000007 := by decide

/-- The first byte is bits [7:0] (20_memory.md R63). -/
theorem test_decode_bytes : decodeBytes [0x06, 0x00, 0x00, 0x00, 0xAA] = .ok (.encm, [0xAA]) := by rfl
theorem test_decode_three_bytes_rejected : decodeBytes [0x06, 0x00, 0x00] = .error .truncated := by rfl
theorem test_decode_table_word :
    decodeTableWord 32 3 = some .decb ∧ decodeTableWord 32 0x100 = some (.illegal 0x100) ∧
      decodeTableWord 40 3 = none := by decide
theorem test_encode_decm : encodeBytes .decm = [0x07, 0x00, 0x00, 0x00] := by decide

/-! The datapath (95_test_vectors.md TV2, TV3, 41_datapath.md R131, R139). -/

theorem test_rotations :
    rotl 0x12345678 31 = 0x091A2B3C ∧ rotr 0x12345678 31 = 0x2468ACF0 ∧ rotr 0x80000001 1 = 0xC0000000 ∧
      rotl 0x00000001 31 = 0x80000000 ∧ rotl 0x12345678 32 = 0x12345678 := by decide
theorem test_arithmetic :
    add32 0x80000000 0x80000000 = 0 ∧ sub32 5 7 = 0xFFFFFFFE ∧ mul32 0x12345678 0x2468ACF1 = 0x4E1E06F8 ∧
      xor32 0x0F0F0F0F 0xFF00FF00 = 0xF00FF00F ∧ amt 0xFFFFFFE5 = 5 := by decide
theorem test_round_function : f 0x2A66311C = 0x3BB4E79C ∧ f 0x9B17852D = 0xBA631FFF := by decide
theorem test_codec :
    bytesToWords [0x73, 0x75, 0x63, 0x68] = [0x68637573] ∧ wordsToBytes [0x36A5C38F] = [0x8F, 0xC3, 0xA5, 0x36] := by
  decide

/-! KEYSCHED (TV5, TV7). -/

/-- TV4 and TV5: the initial subkeys, and the first mixing iteration of a key of 16 zero bytes. -/
theorem test_keysched_first_iteration :
    initialSubkeys.getD 1 0 = 0x5618CB1C ∧ initialSubkeys.getD 43 0 = 0x4B32C376 ∧
    (mixIter 4 { s := initialSubkeys, l := [0, 0, 0, 0], ka := 0, kb := 0, i := 0, j := 0 }).ka = 0xBF0A8B1D ∧
    (mixIter 4 { s := initialSubkeys, l := [0, 0, 0, 0], ka := 0, kb := 0, i := 0, j := 0 }).kb = 0xB7E15163 := by
  decide

/-- TV7: the last word for the one-byte key 01, read from SUBKEY after the command. -/
theorem test_keysched_one_byte_key :
    busRead (after .keysched (memWrite (withLengths 1 0) .key 0 [0x01])) 0x02AC = (0x8F6F780C, false) := by
  decide +kernel

/-! ENCB and DECB (TV9, TV7, TV10). -/

/-- TV9: round 1, with S[2] and S[3] of TV5. -/
theorem test_encb_first_round :
    encRound [0, 0, 0x8108B207, 0x39D14185]
        { a := 0, b := 0x2A66311C, c := 0, d := 0x9B17852D, tt := 0, uu := 0 } 1 =
      { a := 0x2A66311C, b := 0x35777384, c := 0x9B17852D, d := 0x9EE325D5
        tt := 0x3BB4E79C, uu := 0xBA631FFF } := by decide

/-- TV7: the block of zeros under the one-byte key 01. -/
theorem test_encb_block :
    encryptBlock (zeros 16) (keySchedule [0x01]) =
      [0x7A, 0x81, 0x63, 0x9A, 0x91, 0xB7, 0xF0, 0x86, 0x99, 0x54, 0x02, 0xEB, 0x7A, 0x1C, 0x8D, 0xD3] := by
  decide +kernel

/-- TV10: 16 zero bytes under the key of 16 zero bytes. -/
theorem test_decb_block :
    decryptBlock (zeros 16) (keySchedule (zeros 16)) =
      [0xA1, 0xF2, 0x78, 0x9E, 0xFC, 0x34, 0x4F, 0xC4, 0x26, 0xBC, 0xC5, 0xEE, 0x74, 0x62, 0xFF, 0x59] := by
  decide +kernel

/-- R178: no subkeys, code 3, and BLKOUT not written. -/
theorem test_decb_without_subkeys :
    statusWord (after .decb (withLengths 0 0)).status = 0x00000306 ∧ (after .decb (withLengths 0 0)).mem = [] := by
  decide

/-! PAD (TV13). -/

theorem test_pad_abc :
    memRead (after .pad (memWrite (withLengths 0 3) .msgin 0 [0x61, 0x62, 0x63])) .msgout 0 16 =
      [0x61, 0x62, 0x63, 0x80, 0, 0, 0, 0, 0, 0, 0, 0, 0, 0, 0, 0] := by decide +kernel
/-- A full block is padded by a whole block. -/
theorem test_pad_full_block :
    (after .pad (memWrite (withLengths 0 16) .msgin 0 (zeros 16))).outlen = 32 := by decide +kernel

/-! UNPAD (TV14). -/

/-- Two zero bytes of the message stay. -/
theorem test_unpad_keeps_message_zeros :
    (after .unpad
      (memWrite (withLengths 0 16) .msgin 0 [0x61, 0x62, 0, 0, 0x80, 0, 0, 0, 0, 0, 0, 0, 0, 0, 0, 0])).outlen = 4 := by
  decide +kernel
/-- 32 bytes removed: the warning, no error. -/
theorem test_unpad_warns :
    statusWord (after .unpad (memWrite (withLengths 0 32) .msgin 0 (0x80 :: zeros 31))).status = 0x00000012 := by
  decide +kernel

/-! ENCM and DECM (TV16, TV7, TV17). -/

/-- TV16: the empty message under the key "suchKeySoVeryKey" is one padding block. -/
theorem test_encm_empty_message :
    encryptMessage [0x73, 0x75, 0x63, 0x68, 0x4B, 0x65, 0x79, 0x53, 0x6F, 0x56, 0x65, 0x72, 0x79, 0x4B, 0x65, 0x79] [] =
      [0x0D, 0x9A, 0xC2, 0x94, 0x5F, 0x10, 0x53, 0x4E, 0x15, 0x11, 0x58, 0xE7, 0x54, 0x7C, 0x5D, 0x83] := by
  decide +kernel
/-- TV16: a message of 16 bytes gives 32, and TV17: MARKER is not written. -/
theorem test_encm_lengths :
    (after .encm (withLengths 16 16)).outlen = 32 ∧ (after .encm (withLengths 16 16)).marker = 0 := by decide +kernel

/-- TV7 backwards: the encryption of 16 zero bytes under the key 01 has no marker, and KEYV is set all the same. -/
theorem test_decm_all_zero_plaintext :
    statusWord
      (after .decm
        (memWrite (memWrite (withLengths 1 16) .key 0 [0x01]) .msgin 0
          [0x7A, 0x81, 0x63, 0x9A, 0x91, 0xB7, 0xF0, 0x86, 0x99, 0x54, 0x02, 0xEB, 0x7A, 0x1C, 0x8D, 0xD3])).status =
      0x0000050E := by decide +kernel

/-- R222: KLEN = 0 and MLEN = 20 report INVALID_KEY. -/
theorem test_decm_reports_the_first_error :
    statusWord (after .decm (withLengths 0 20)).status = 0x00000106 := by decide

/-! NOP and ILLEGAL (R116, R117). -/

/-- R116: STATUS = 0x0000030E before, 0x0000000A after. -/
theorem test_nop_clears_the_report :
    statusWord
      (after .nop
        (accept
          { State.reset with
            status := { busy := false, done := true, err := true, keyv := true, padwarn := false, errcode := 3 } }
          0)).status = 0x0000000A := by decide
theorem test_illegal_code : statusWord (after (decode 0x10) (withLengths 0 0)).status = 0x00000606 := by decide

/-! A step, and the bus (TV18, R61, R62). -/

/-- A word placed for the next step is run by it. -/
theorem test_step_runs_the_placed_word :
    statusWord (nextOf (step (State.reset.withFetchWord 32 8)) State.reset).status = 0x00000606 := by decide

/-- The host issues a NOP, the engine completes it, and the host reads STATUS. -/
theorem test_host_runs_a_nop :
    (nextOf
      (Host.Core.run Sys2Proof.core 3
        { State.reset with inputs := [.hostWrite 0x0008 0, .engine, .hostRead 0x000C] }) State.reset).resp =
      some (.read 0x00000002 false) := by decide

theorem test_bus_reads_after_reset :
    busRead State.reset 0x0000 = (0x52433614, false) ∧ busRead State.reset 0x0200 = (0, false) ∧
      busRead State.reset 0x0002 = (0, true) ∧ busRead State.reset 0x0024 = (0, true) := by decide

/-- KEYLEN keeps nine bits. -/
theorem test_bus_write_keylen : (busWrite State.reset 0x0014 0xFFFFFF01).1.keylen = 0x101 := by decide

theorem test_reset_memory_is_canonical : Memory.wf State.reset.mem = true := by decide

/-! ### Witnesses: reset and state -/

/-- A state that holds subkeys, from a run of KEYSCHED with a one-byte key. -/
def keyedState : State := after .keysched (memWrite (withLengths 1 0) .key 0 [0x01])

/-- KEYV = 1 and a subkey array written out: zeros, but for S[43] = 0x4B38AC83. -/
def writtenSubkeys : State :=
  withKey (memWrite (withLengths 0 0) .subkey 0 (zeros 172 ++ [0x83, 0xAC, 0x38, 0x4B]))

/-- A running command: KEYSCHED accepted. -/
def runningState : State := accept (withLengths 1 16) 1

theorem witness_idle_inv (klen mlen : Nat) : (withLengths klen mlen).Inv := by
  refine ⟨⟨nofun, nofun, fun _ => rfl, ?_⟩, ?_, ⟨rfl, nofun⟩, nofun, ?_⟩ <;>
    simp [withLengths, State.reset, Status.reset, PhaseInv]

theorem witness_running_inv : runningState.Inv ∧ runningState.status.busy = true :=
  ⟨inv_of_fields (s := (busWrite (withLengths 1 16) 0x0008 1).1) (busWrite_inv _ _ _ (witness_idle_inv 1 16))
    (by decide) (by decide) (by decide) (by decide), rfl⟩

/-- The key byte written, and then the schedule: a good state in which KEYV = 1. -/
theorem witness_keyed_inv : keyedState.Inv ∧ keyedState.status.keyv = true := by
  refine ⟨exec_inv (i := .keysched) ?_ (exec_after ..), by decide +kernel⟩
  refine ⟨(witness_idle_inv 1 0).status, (witness_idle_inv 1 0).phase, ?_, nofun, (witness_idle_inv 1 0).outlen⟩
  exact storeBytes_memInv (m := []) (b := .key) (k := 0) ⟨rfl, nofun⟩ (by decide)

theorem witness_StatusWriteClearsTheBitsWritten : ∃ s : State, s.Inv ∧ s.status.busy = true :=
  ⟨_, witness_running_inv⟩

theorem witness_LengthRegistersAreReadBack :
    (withLengths 0 0).status.busy = false ∧ runningState.status.busy = true := by decide

theorem witness_EveryStepKeepsTheInvariant : ∃ s t : State, s.Inv ∧ step s = .next t ∧ t.status.done = true := by
  exact ⟨runningState, _, witness_running_inv.1, 
    (step_of_nil rfl).trans (move_engine (s := runningState) rfl), by decide +kernel⟩

/-! ### Witnesses: the bus -/

theorem witness_MisalignedAccessesAreRefused :
    (0x0001 : Addr).toNat % 4 ≠ 0 ∧ (0x0102 : Addr).toNat % 4 ≠ 0 ∧ (0xFFFF : Addr).toNat % 4 ≠ 0 := by decide

/-- The ends of the unmapped ranges, and the ends of the mapped ones beside them. -/
theorem witness_UnmappedAccessesAreRefused :
    locate 0x0024 = none ∧ locate 0x00FC = none ∧ locate 0x02B0 = none ∧ locate 0x02FC = none ∧
      locate 0x0320 = none ∧ locate 0x0FFC = none ∧ locate 0x3000 = none ∧ locate 0xFFFC = none ∧
      locate 0x0020 = some .marker ∧ locate 0x0100 = some (.window .key 0) ∧
      locate 0x02AC = some (.window .subkey 172) ∧ locate 0x0300 = some (.window .blkin 0) ∧
      locate 0x031C = some (.window .blkout 12) ∧ locate 0x1000 = some (.window .msgin 0) ∧
      locate 0x2FFC = some (.window .msgout 4092) := by decide

/-- The first and the last word of each read-only range. -/
theorem witness_ReadOnlyLocationsRefuseWrites :
    (busWrite State.reset 0x0200 5).2 = true ∧ (busWrite State.reset 0x02AC 5).2 = true ∧
      (busWrite State.reset 0x0310 5).2 = true ∧ (busWrite State.reset 0x031C 5).2 = true ∧
      (busWrite State.reset 0x2000 5).2 = true ∧ (busWrite State.reset 0x2FFC 5).2 = true ∧
      (busWrite State.reset 0x030C 5).2 = false ∧ (busWrite State.reset 0x1FFC 5).2 = false := by decide

/-- S[43] at the last word of the window, with KEYV = 0 and with KEYV = 1. -/
theorem witness_SubkeyReadsAreGatedByKeyValid :
    43 < 44 ∧ (withLengths 0 0).status.busy = false ∧ writtenSubkeys.status.busy = false ∧
      busRead { writtenSubkeys with status := Status.reset } 0x02AC = (0, false) ∧
      busRead writtenSubkeys 0x02AC = (0x4B38AC83, false) := by decide +kernel

theorem witness_IdleReadsReturnTheCurrentValue :
    keyedState.status.busy = false ∧ keyedState.status.keyv = true ∧ (0x0100 : Addr).toNat % 4 = 0 ∧
      (0x02AC : Addr).toNat % 4 = 0 ∧ (0x031C : Addr).toNat % 4 = 0 ∧ (0x2FFC : Addr).toNat % 4 = 0 := by
  decide +kernel

/-- An engine-written address at each end of its ranges, and the addresses beside them. -/
theorem witness_BusyReadsOfResultsAreFree :
    runningState.status.busy = true ∧ (0x02AC : Addr).toNat % 4 = 0 ∧ (0x0310 : Addr).toNat % 4 = 0 ∧
      (0x030C : Addr).toNat % 4 = 0 ∧ (0x1FFC : Addr).toNat % 4 = 0 ∧ (0x2000 : Addr).toNat % 4 = 0 := by decide

theorem witness_BusErrorsChangeNoState :
    (busWrite State.reset 0x0000 5).2 = true ∧ (busRead State.reset 0x3000).2 = true := by decide

theorem witness_BusyEngineRefusesInputWrites :
    runningState.status.busy = true ∧ (busWrite runningState 0x0008 0).2 = true ∧
      (busWrite runningState 0x01FC 0).2 = true ∧ (busWrite runningState 0x000C 0).2 = false := by decide

/-- S[0] and S[43] through the window. -/
theorem witness_WindowWordsAreLittleEndian :
    0 < 44 ∧ 43 < 44 ∧ windowWord writtenSubkeys .subkey (4 * 43) = 0x4B38AC83 := by decide +kernel

/-- The first and the last word of each input window. -/
theorem witness_HostWriteToABufferReadsBack :
    (withLengths 0 0).status.busy = false ∧ (0x0100 : Addr).toNat % 4 = 0 ∧ (0x01FC : Addr).toNat % 4 = 0 ∧
      (0x0300 : Addr).toNat % 4 = 0 ∧ (0x030C : Addr).toNat % 4 = 0 ∧ (0x1000 : Addr).toNat % 4 = 0 ∧
      (0x1FFC : Addr).toNat % 4 = 0 ∧
      (busRead (busWrite (withLengths 0 0) 0x1FFC 0xA1B2C3D4).1 0x1FFC).1 = 0xA1B2C3D4 := by decide

/-! ### Witnesses: encoding and the command protocol -/

theorem witness_EveryOpcodeValueDecodesToItsRow :
    0 < 8 ∧ 7 < 8 ∧ decode (BitVec.ofNat 32 (8 + 7)) = .illegal 0x0000000F := by decide

theorem witness_DecodeOfEncodedBytesIsTheCommand :
    Instr.decm.wellFormed = true ∧ (Instr.illegal 8).wellFormed = true ∧
      (Instr.illegal 0xFFFFFFFF).wellFormed = true := by decide

theorem witness_AcceptanceLatchesTheWord : (withLengths 0 0).status.busy = false ∧ keyedState.status.busy = false := by
  decide +kernel

theorem witness_EngineMoveRunsTheLatchedCommand :
    runningState.phase = .running ∧ runningState.inputs = [] ∧
      ({ runningState with inputs := [.engine, .reset] } : State).inputs = .engine :: [.reset] ∧
      ({ withLengths 0 0 with inputs := [.engine] } : State).phase = .idle := by decide

theorem witness_EveryCommandCompletes : keyedState.status.keyv = true := witness_keyed_inv.2

theorem witness_NopCompletesWithNoEffect : (withLengths 0 0).status.busy = false := by decide

theorem witness_IllegalWordsReportIllegalCommand :
    (8 : Word).toNat % 16 ≥ 8 ∧ (0x0F : Word).toNat % 16 ≥ 8 ∧ (0x10 : Word).toNat / 16 ≠ 0 ∧
      (0xFFFFFFF7 : Word).toNat / 16 ≠ 0 := by decide

/-! ### Witnesses: datapath, key schedule, block transform -/

theorem witness_WordCodecIsLittleEndian :
    ([0x73, 0x75, 0x63, 0x68] : List Byte).length % 4 = 0 ∧ 0 < ([0x73, 0x75, 0x63, 0x68] : List Byte).length / 4 := by
  decide

theorem witness_RotationsMoveEveryBit : 0 < 32 ∧ 31 < 32 := by decide

/-- The first and the last step of the recurrence. -/
theorem witness_SubkeyInitialisationFollowsTheRecurrence : 0 < 43 ∧ 42 < 43 := by decide

theorem witness_MixingLoopFollowsTheRule :
    (43 : Nat) < ({ s := initialSubkeys, l := [0], ka := 0, kb := 0, i := 43, j := 0 } : MixRegs).s.length ∧
      (0 : Nat) < ({ s := initialSubkeys, l := [0], ka := 0, kb := 0, i := 43, j := 0 } : MixRegs).l.length := by decide

/-- One byte, and the three zero bytes of its word. -/
theorem witness_EquivalentKeysGiveEqualSubkeys : 3 ≤ (4 - ([0x01] : List Byte).length % 4) % 4 := by decide

/-- The key lengths at the ends of the clauses. -/
theorem witness_KeyschedWritesTheSubkeys :
    (withLengths 0 0).keylen.toNat = 0 ∧ (withLengths 257 0).keylen.toNat = 257 ∧
      (withLengths 511 0).keylen.toNat = 511 ∧ (withLengths 1 0).keylen.toNat = 1 ∧
      (withLengths 256 0).keylen.toNat = 256 := by decide

/-- Two states with the key byte 01, one of them with another byte after it. -/
theorem witness_KeyschedReadsOnlyTheKeyBytes :
    ∃ s s' t t' : State, 1 ≤ s.keylen.toNat ∧ s.keylen.toNat ≤ 256 ∧ s'.keylen = s.keylen ∧
      (∀ i, i < s.keylen.toNat → readByte s' (0x0100 + i) = readByte s (0x0100 + i)) ∧
      exec .keysched s = .next t ∧ exec .keysched s' = .next t' ∧ readByte s' 0x0101 = 0xEE := by
  refine ⟨memWrite (withLengths 1 0) .key 0 [0x01], memWrite (withLengths 1 0) .key 0 [0x01, 0xEE], _, _,
    by decide, by decide, rfl, fun i hi => ?_, exec_after .., exec_after .., by decide⟩
  have h : (memWrite (withLengths 1 0) .key 0 [0x01]).keylen.toNat = 1 := by decide
  obtain rfl : i = 0 := by omega
  decide

theorem witness_BlockTransformsAreInverse : (zeros 16).length = 16 := by decide

theorem witness_EncryptionRoundFollowsTheRule : 1 ≤ 1 ∧ 1 ≤ 20 ∧ 20 ≤ 20 := by decide

theorem witness_DecryptionRoundFollowsTheRule : 1 ≤ 1 ∧ 1 ≤ 20 ∧ 20 ≤ 20 := by decide

theorem witness_EncbEncryptsTheInputBlock :
    (withLengths 0 0).status.keyv = false ∧ keyedState.status.keyv = true :=
  ⟨rfl, witness_keyed_inv.2⟩

theorem witness_DecbDecryptsTheInputBlock :
    (withLengths 0 0).status.keyv = false ∧ keyedState.status.keyv = true :=
  ⟨rfl, witness_keyed_inv.2⟩

/-- A subkey array, a block of zeros, and the host's copy of the output block. -/
theorem witness_DecbRecoversWhatEncbEncrypted :
    ∃ s t u v : State, s.status.keyv = true ∧ exec .encb s = .next t ∧ u.status.keyv = true ∧
      subkeys u = subkeys s ∧ blkinBytes u = memRead t .blkout 0 16 ∧ exec .decb u = .next v := by
  refine ⟨memWrite writtenSubkeys .blkin 0 (zeros 16), _,
    memWrite writtenSubkeys .blkin 0 (memRead (after .encb (memWrite writtenSubkeys .blkin 0 (zeros 16))) .blkout 0 16),
    _, rfl, exec_after .., rfl, ?_, ?_, exec_after ..⟩
  · refine subkeys_congr fun a h1 h2 => ?_
    rw [readByte_memWrite, readByte_memWrite, if_neg, if_neg] <;> simp [bufBase] <;> omega
  · have h := memRead_memWrite writtenSubkeys .blkin 0
      (memRead (after .encb (memWrite writtenSubkeys .blkin 0 (zeros 16))) .blkout 0 16)
    rwa [memRead_length] at h

/-! ### Witnesses: the message framer -/

/-- The message lengths at the ends of the clauses. -/
theorem witness_PadWritesThePaddedMessage :
    (withLengths 0 0).msglen.toNat = 0 ∧ (withLengths 0 4095).msglen.toNat = 4095 ∧
      (withLengths 0 4096).msglen.toNat = 4096 ∧ (withLengths 0 8191).msglen.toNat = 8191 := by decide

/-- The lengths at the ends of the clauses, a marker at each end of a block, and a block of zeros. -/
theorem witness_UnpadReportsMarkerAndLength :
    (withLengths 0 0).msglen.toNat = 0 ∧ (withLengths 0 17).msglen.toNat % 16 ≠ 0 ∧
      (withLengths 0 4112).msglen.toNat = 4112 ∧ 4112 % 16 = 0 ∧ (withLengths 0 16).msglen.toNat = 16 ∧
      (withLengths 0 4096).msglen.toNat = 4096 ∧
      readByte (memWrite (withLengths 0 16) .msgin 0 (0x80 :: zeros 15)) 0x1000 ≠ 0 ∧
      readByte (memWrite (withLengths 0 16) .msgin 0 (zeros 15 ++ [0x01])) 0x100F ≠ 0 ∧
      (∀ j, j < 16 → readByte (memWrite (withLengths 0 16) .msgin 0 (zeros 16)) (0x1000 + j) = 0) := by
  decide +kernel

theorem witness_UnpadFindsTheLastNonzeroByte :
    unpad [0x00, 0x61, 0x00] = .found 1 0x61 ∧ unpad [0x00, 0x00] = .notFound := by decide

theorem witness_EncmEncryptsTheMessage :
    (withLengths 0 0).keylen.toNat = 0 ∧ (withLengths 257 0).keylen.toNat = 257 ∧
      (withLengths 1 4096).keylen.toNat = 1 ∧ (withLengths 1 4096).msglen.toNat = 4096 ∧
      (withLengths 256 4095).keylen.toNat = 256 ∧ (withLengths 256 4095).msglen.toNat = 4095 := by decide

theorem witness_DecmDecryptsAndDepads :
    (withLengths 0 16).keylen.toNat = 0 ∧ (withLengths 257 16).keylen.toNat = 257 ∧
      (withLengths 1 20).msglen.toNat % 16 ≠ 0 ∧ (withLengths 1 4112).msglen.toNat = 4112 ∧
      (withLengths 1 16).msglen.toNat = 16 ∧ (withLengths 256 4096).msglen.toNat = 4096 := by decide

/-- What DECM leaves in MSGOUT. -/
theorem after_decm_msgout {s : State} (hk : keyCheck s = none) (hc : decLengthCheck s = none) :
    memRead (after .decm s) .msgout 0 (mlen s) = decryptMessage (keyBytes s) (msgBytes s) := by
  have hd := decryptMessage_length (keyBytes s) (ct := msgBytes s)
    (by rw [msgBytes_length]; exact (decLengthCheck_none.mp hc).2.1)
  rw [msgBytes_length] at hd
  rw [exec_next (exec_after .decm s), decm_ok hk hc,
    memRead_msgout_of_two _ (writesOf_decm ..) (by rw [hd, mlen]; omega), List.drop_zero,
    List.take_of_length_le (by rw [hd, mlen])]

/-- DECM meets both of the depadder's cases: a byte found, and a plaintext of zeros. -/
theorem witness_DecmDecryptsAndDepads_plaintexts :
    readByte (after .decm (memWrite (memWrite (withLengths 1 16) .key 0 [0x01]) .msgin 0 (zeros 16))) 0x200F ≠ 0 ∧
    memRead
      (after .decm
        (memWrite (memWrite (withLengths 1 16) .key 0 [0x01]) .msgin 0
          [0x7A, 0x81, 0x63, 0x9A, 0x91, 0xB7, 0xF0, 0x86, 0x99, 0x54, 0x02, 0xEB, 0x7A, 0x1C, 0x8D, 0xD3]))
      .msgout 0 16 = zeros 16 := by
  refine ⟨by decide +kernel, (after_decm_msgout (by decide) (by decide)).trans ?_⟩
  decide +kernel

/-- The empty message encrypted, and the state in which the host has written the ciphertext and its length back. -/
theorem witness_DecmRecoversWhatEncmEncrypted :
    ∃ s t u : State, 1 ≤ s.keylen.toNat ∧ s.keylen.toNat ≤ 256 ∧ s.msglen.toNat ≤ 4095 ∧
      exec .encm s = .next t ∧ keyBytes u = keyBytes s ∧ u.msglen = t.outlen ∧
      memRead u .msgin 0 t.outlen.toNat = memRead t .msgout 0 t.outlen.toNat ∧ u.status.err = false := by
  refine ⟨memWrite (withLengths 1 0) .key 0 [0x01], _,
    memWrite
      { memWrite (withLengths 1 0) .key 0 [0x01] with
        msglen := (after .encm (memWrite (withLengths 1 0) .key 0 [0x01])).outlen } .msgin 0
      (memRead (after .encm (memWrite (withLengths 1 0) .key 0 [0x01])) .msgout 0
        (after .encm (memWrite (withLengths 1 0) .key 0 [0x01])).outlen.toNat),
    by decide, by decide, by decide, exec_after .., ?_, rfl, ?_, rfl⟩
  · refine memRead_congr fun a h1 h2 => ?_
    rw [readByte_memWrite, if_neg]
    · rfl
    · simp [bufBase, klen, withLengths, State.reset] at *; omega
  · generalize after .encm (memWrite (withLengths 1 0) .key 0 [0x01]) = t
    have h := memRead_memWrite { memWrite (withLengths 1 0) .key 0 [0x01] with msglen := t.outlen } .msgin 0
      (memRead t .msgout 0 t.outlen.toNat)
    rwa [memRead_length] at h

/-! ### Witnesses: errors, interrupt and hazards -/

/-- The lengths at the ends of the table of R221. -/
theorem witness_FailedChecksChangeOnlyStatus :
    (withLengths 0 0).keylen.toNat = 0 ∧ (withLengths 257 0).keylen.toNat = 257 ∧
      (withLengths 1 4096).msglen.toNat = 4096 ∧ (withLengths 1 0).msglen.toNat = 0 ∧
      (withLengths 1 4112).msglen.toNat % 16 = 0 ∧ (withLengths 1 8176).msglen.toNat = 8176 := by decide

theorem witness_EachCommandRaisesOnlyItsErrors :
    ∃ t, runningState.status.err = false ∧ runningState.status.errcode = 0 ∧ exec .encb runningState = .next t ∧
      t.status.errcode = 3 :=
  ⟨_, rfl, rfl, exec_after .., by decide⟩

theorem witness_IrqIsALevelOfStatusAndEnables :
    (withLengths 0 0).status.busy = false ∧
      irq { withLengths 0 0 with
            irqen := { doneIe := true, errIe := false }, status := { Status.reset with done := true } } = true := by
  decide

theorem witness_KeyValidIsSetOnlyByKeySchedules :
    ∃ s t u v : State, move .engine s = .next t ∧ s.status.keyv = false ∧ t.status.keyv = true ∧
      move .reset u = .next v ∧ u.status.keyv = true ∧ v.status.keyv = false := by
  exact ⟨runningState, _, withKey runningState, _, move_engine rfl, rfl, by decide +kernel, rfl, rfl, rfl⟩

/-- KEYSCHED replaces a SUBKEY byte by S[0] of the one-byte key 01, whose low byte is 2E. -/
theorem witness_SubkeysChangeOnlyByKeySchedules :
    ∃ s t : State, move .engine s = .next t ∧ inWindow .subkey 0x0200 = true ∧
      readByte t 0x0200 ≠ readByte s 0x0200 := by
  refine ⟨accept (memWrite (memWrite (withLengths 1 0) .key 0 [0x01]) .subkey 0 [0xFF]) 1, _, move_engine rfl, rfl, ?_⟩
  decide +kernel

theorem witness_EngineNeverWritesItsInputs :
    (∃ t, exec .encm (withLengths 1 0) = .next t) ∧ inWindow .key 0x01FF = true ∧ inWindow .blkin 0x030F = true ∧
      inWindow .msgin 0x1000 = true :=
  ⟨⟨_, exec_after ..⟩, by decide, by decide, by decide⟩

/-- A running NOP, with a read and a refused write before the engine's move. -/
theorem witness_HostAccessesDoNotChangeTheResult :
    ∃ s t u : State, s.Inv ∧ s.status.busy = true ∧
      ([.hostRead 0x000C, .hostWrite 0x0014 5] : List Event).all Event.isHostAccess = true ∧
      s.inputs = [.hostRead 0x000C, .hostWrite 0x0014 5] ++ [.engine] ∧
      Host.Core.run Sys2Proof.core 3 s = .next t ∧
      exec (decode s.opw) { s with inputs := [] } = .next u := by
  refine ⟨{ accept (withLengths 1 16) 0 with inputs := [.hostRead 0x000C, .hostWrite 0x0014 5, .engine] }, _, _,
    ?_, rfl, rfl, rfl, rfl, exec_after ..⟩
  exact inv_of_fields witness_running_inv.1 rfl rfl rfl rfl

theorem witness_IdleEngineKeepsEveryState : ∃ s : State, s.Inv ∧ s.status.busy = false :=
  ⟨_, witness_idle_inv 1 16, rfl⟩

end Sys2Proof.Tests
end

/-! The host's writes to STATUS and IRQEN (10_state.md R26, R27). -/

namespace Sys2Proof.Machine

/-! STATUS and IRQEN on the bus. -/

theorem busWrite_status (s : State) (v : Word) :
    busWrite s 0x000C v = ({ s with status := clearStatus s.status v }, false) :=
  busWrite_aligned (loc := .status) (by decide) (by decide)

theorem busWrite_irqen (s : State) (v : Word) :
    busWrite s 0x0010 v = ({ s with irqen := irqenOfWord v }, false) :=
  busWrite_aligned (loc := .irqen) (by decide) (by decide)

theorem busRead_irqen (s : State) : busRead s 0x0010 = (irqenWord s.irqen, false) :=
  busRead_aligned (loc := .irqen) (by decide) (by decide)

/-! The words and the fields. -/

/-- `clearStatus` masks each field with the complement of its bit; R26 words the same as "clears it if the bit is 1". -/
theorem clearStatus_eq_ite (st : Status) (v : Word) :
    clearStatus st v =
      { busy := st.busy
        done := if v.getLsbD 1 then false else st.done
        err := if v.getLsbD 2 then false else st.err
        keyv := st.keyv
        padwarn := if v.getLsbD 4 then false else st.padwarn
        errcode := if v.getLsbD 2 then 0 else st.errcode } := by
  simp only [clearStatus, Bool.if_false_left, Bool.decide_eq_true, Bool.and_comm]

/-- While BUSY = 1 every field a write could clear is clear already (R25). -/
theorem clearStatus_of_busy {st : Status} (h : StatusInv st) (hb : st.busy = true) (v : Word) :
    clearStatus st v = st := by
  obtain ⟨hdone, herr, hpadwarn, herrcode⟩ := h.busyClear hb
  cases st
  simp_all [clearStatus]

/-- IRQEN's two enables are the low two bits of the word written (R27). -/
theorem irqenWord_irqenOfWord (v : Word) : irqenWord (irqenOfWord v) = v &&& 0x3 := by
  have hmask : (v &&& 0x3).toNat = v.toNat % 4 := Nat.and_two_pow_sub_one_eq_mod v.toNat 2
  apply BitVec.eq_of_toNat_eq
  rw [hmask]
  simp only [irqenWord, irqenOfWord, BitVec.getLsbD, Nat.toNat_testBit, BitVec.toNat_ofNat]
  omega

/-- Settles O3: the write reaches `clearStatus`, which the invariant makes the identity while BUSY = 1. -/
theorem statusWriteClearsTheBitsWritten : Obligations.StatusWriteClearsTheBitsWritten := by
  intro s v
  constructor
  · rw [busWrite_status, clearStatus_eq_ite]
  · intro hinv hbusy
    rw [busWrite_status, clearStatus_of_busy hinv.status hbusy]

/-- Settles O4: the write stores `irqenOfWord v`, whose word is the low two bits of `v`. -/
theorem irqEnablesAreReadBack : Obligations.IrqEnablesAreReadBack := by
  intro s v
  refine ⟨busWrite_irqen s v, ?_, rfl⟩
  rw [busRead_irqen, busWrite_irqen, irqenWord_irqenOfWord]

end Sys2Proof.Machine

/-! Refused accesses, the unmapped ranges and the byte order of a window (20_memory.md R63 to R72). -/

namespace Sys2Proof.Machine

/-! Refused writes. -/

/-- A write is refused at any alignment of a read-only address, and where `writeLoc` itself refuses it. -/
theorem busWrite_refused {s : State} {a : Addr} {v : Word} {loc : Location} (hl : locate a.toNat = some loc)
    (h : readOnly loc = true ∨ writeLoc s loc v = (s, true)) : busWrite s a v = (s, true) := by
  by_cases h4 : a.toNat % 4 = 0
  · rw [busWrite_aligned h4 hl]
    obtain hro | hw := h
    · rw [if_pos hro]
    · rw [hw, ite_self]
  · exact busWrite_misaligned h4

theorem busWrite_readOnly {s : State} {a : Addr} {v : Word} {loc : Location} (hl : locate a.toNat = some loc)
    (h : readOnly loc = true) : busWrite s a v = (s, true) := busWrite_refused hl (.inl h)

/-- While BUSY = 1 only STATUS and IRQEN take a write (R72). -/
theorem busWrite_of_busy {s : State} {a : Addr} {v : Word} {loc : Location} (hb : s.status.busy = true)
    (hl : locate a.toNat = some loc) (hstatus : loc ≠ .status) (hirqen : loc ≠ .irqen) :
    busWrite s a v = (s, true) := by
  refine busWrite_refused hl (.inr ?_)
  cases loc <;> simp_all [writeLoc]

/-! The mapped addresses. -/

/-- Every aligned address outside the ranges of R67 is mapped. -/
theorem locate_isSome_of_mapped {a : Nat} (h4 : a % 4 = 0)
    (h : ¬ ((0x0024 ≤ a ∧ a ≤ 0x00FF) ∨ (0x02B0 ≤ a ∧ a ≤ 0x02FF) ∨ (0x0320 ≤ a ∧ a ≤ 0x0FFF) ∨ 0x3000 ≤ a)) :
    (locate a).isSome = true := by
  have hranges : a < 0x0024 ∨ (0x0100 ≤ a ∧ a ≤ 0x01FF) ∨ (0x0200 ≤ a ∧ a ≤ 0x02AF) ∨
      (0x0300 ≤ a ∧ a ≤ 0x030F) ∨ (0x0310 ≤ a ∧ a ≤ 0x031F) ∨ (0x1000 ≤ a ∧ a ≤ 0x1FFF) ∨
      (0x2000 ≤ a ∧ a ≤ 0x2FFF) := by omega
  obtain hreg | hkey | hsubkey | hblkin | hblkout | hmsgin | hmsgout := hranges
  · have hregister := locate_register hreg h4
    grind
  · simp [locate_key hkey]
  · simp [locate_subkey hsubkey]
  · simp [locate_blkin hblkin]
  · simp [locate_blkout hblkout]
  · simp [locate_msgin hmsgin]
  · simp [locate_msgout hmsgout]

/-- A read of a mapped location is never a bus error, whatever value it returns. -/
theorem busRead_err_of_mapped {s : State} {a : Addr} (h4 : a.toNat % 4 = 0) {loc : Location}
    (hl : locate a.toNat = some loc) : (busRead s a).2 = false := by
  rw [busRead_aligned h4 hl]
  split_ifs <;> rfl

/-! The words of a window. -/

/-- The bytes of a window's word are the buffer's bytes in their order. -/
theorem bytesOfWord_windowWord (s : State) (b : Buffer) (k : Nat) :
    bytesOfWord (windowWord s b k) =
      [readByte s (bufBase b + k), readByte s (bufBase b + k + 1), readByte s (bufBase b + k + 2),
        readByte s (bufBase b + k + 3)] := by
  rw [windowWord_eq, bytesOfWord_wordOfBytes]

/-- The words of BLKIN are those `loadBlock` takes from the block (R170). -/
theorem loadBlock_blkinBytes (s : State) :
    loadBlock (blkinBytes s) =
      { a := windowWord s .blkin 0, b := windowWord s .blkin 4, c := windowWord s .blkin 8,
        d := windowWord s .blkin 12, tt := 0, uu := 0 } := rfl

/-- Settles O9: `locate` answers `none` in the four ranges, and a location at every other aligned address. -/
theorem unmappedAccessesAreRefused : Obligations.UnmappedAccessesAreRefused := by
  intro s a v
  split
  · next hunmapped =>
    have hl := locate_unmapped hunmapped
    exact ⟨busRead_unmapped hl, busWrite_unmapped hl⟩
  · next hmapped =>
    intro h4
    obtain ⟨loc, hl⟩ := Option.isSome_iff_exists.mp (locate_isSome_of_mapped h4 hmapped)
    exact busRead_err_of_mapped h4 hl

/-- Settles O10: each of the seven addresses or ranges locates to a read-only location. -/
theorem readOnlyLocationsRefuseWrites : Obligations.ReadOnlyLocationsRefuseWrites := by
  intro s a v h
  obtain rfl | rfl | rfl | rfl | hsubkey | hblkout | hmsgout := h
  · exact busWrite_readOnly (loc := .id) rfl rfl
  · exact busWrite_readOnly (loc := .param) rfl rfl
  · exact busWrite_readOnly (loc := .outlen) rfl rfl
  · exact busWrite_readOnly (loc := .marker) rfl rfl
  · exact busWrite_readOnly (locate_subkey hsubkey) rfl
  · exact busWrite_readOnly (locate_blkout hblkout) rfl
  · exact busWrite_readOnly (locate_msgout hmsgout) rfl

/-- Settles O15: none of the input locations is STATUS or IRQEN, the two that take a write while BUSY = 1. -/
theorem busyEngineRefusesInputWrites : Obligations.BusyEngineRefusesInputWrites := by
  intro s a v hb
  constructor
  · rintro (rfl | rfl | rfl | hkey | hblkin | hmsgin)
    · exact busWrite_of_busy (loc := .cmd) hb rfl nofun nofun
    · exact busWrite_of_busy (loc := .keylen) hb rfl nofun nofun
    · exact busWrite_of_busy (loc := .msglen) hb rfl nofun nofun
    · exact busWrite_of_busy hb (locate_key hkey) nofun nofun
    · exact busWrite_of_busy hb (locate_blkin hblkin) nofun nofun
    · exact busWrite_of_busy hb (locate_msgin hmsgin) nofun nofun
  · rintro (rfl | rfl)
    · rw [busWrite_status]
    · rw [busWrite_irqen]

/-- Settles O16: a window's word is `wordOfBytes` of its four bytes, which `bytesOfWord` takes apart again. -/
theorem windowWordsAreLittleEndian : Obligations.WindowWordsAreLittleEndian := by
  intro s
  refine ⟨fun b w => ?_, ?_, ?_, ?_, ?_, fun i hi => windowWord_subkey s hi⟩
  · simpa only [bytesOfWord, List.cons.injEq, and_true] using bytesOfWord_windowWord s b (4 * w)
  all_goals rw [loadBlock_blkinBytes]

/-- Settles O8: both accesses test the alignment first. -/
theorem misalignedAccessesAreRefused : Obligations.MisalignedAccessesAreRefused :=
  fun _ _ _ h4 => ⟨busRead_misaligned h4, busWrite_misaligned h4⟩

end Sys2Proof.Machine

/-! Decoding (30_encoding.md R93). -/

namespace Sys2Proof.Machine

open Sys2Proof.Laws

/-- RSV nonzero or OPCODE in 0x8..0xF says that the word, as a number, is at least 8. -/
theorem isIllegalWord_iff_eight_le (w : Word) : isIllegalWord w = true ↔ 8 ≤ w.toNat := by
  simp only [isIllegalWord, Bool.or_eq_true, decide_eq_true_eq]
  omega

theorem decode_of_eight_le {w : Word} (h : 8 ≤ w.toNat) : decode w = .illegal w :=
  WordRoundTrip.illegal w ((isIllegalWord_iff_eight_le w).mpr h)

/-- Settles O20: each of the eight words is its command's encoding, and every other word is at least 8. -/
theorem decodeNamesExactlyTheEightWords : Obligations.DecodeNamesExactlyTheEightWords := by
  intro w
  split_ifs with h0 h1 h2 h3 h4 h5 h6 h7
  · subst h0; exact WordRoundTrip.nop rfl
  · subst h1; exact WordRoundTrip.keysched rfl
  · subst h2; exact WordRoundTrip.encb rfl
  · subst h3; exact WordRoundTrip.decb rfl
  · subst h4; exact WordRoundTrip.pad rfl
  · subst h5; exact WordRoundTrip.unpad rfl
  · subst h6; exact WordRoundTrip.encm rfl
  · subst h7; exact WordRoundTrip.decm rfl
  · have hge : 8 ≤ w.toNat := by bv_omega
    exact decode_of_eight_le hge

end Sys2Proof.Machine

/-! Acceptance, and the completions of NOP and ILLEGAL (40_command_protocol.md R110, R116, R117). -/

namespace Sys2Proof.Machine

open Sys2Proof.Laws

/-- While BUSY = 0 a write of CMD is an acceptance, for every word (R110). -/
theorem busWrite_cmd_of_idle {s : State} (h : s.status.busy = false) (w : Word) :
    busWrite s 0x0008 w = (accept s w, false) := by
  have hcmd : busWrite s 0x0008 w = writeLoc s .cmd w := busWrite_aligned (loc := .cmd) (by decide) (by decide)
  rw [hcmd, writeLoc, h]
  rfl

/-- NOP commits no update: its completion is the report alone (R116). -/
theorem exec_nop (s : State) : exec .nop s = .next (finish s none) := exec_eq .nop s

/-- ILLEGAL completes as a failed check with code 6, whatever its word (R117). -/
theorem exec_illegal (w : Word) (s : State) : exec (.illegal w) s = .next (failedWith s 6) := by
  rw [exec_eq]
  exact congrArg _ (finish_checkError s .illegalCommand)

/-- Settles O23: the write is an acceptance, which latches the word and clears the report. -/
theorem acceptanceLatchesTheWord : Obligations.AcceptanceLatchesTheWord :=
  fun _ w hidle => busWrite_cmd_of_idle hidle w

/-- Settles O28: NOP's completion is the report alone, and the acceptance before it has cleared the last one. -/
theorem nopCompletesWithNoEffect : Obligations.NopCompletesWithNoEffect := by
  intro s
  refine ⟨exec_nop s, fun hidle => ⟨finish (accept s 0) none, ?_, rfl, rfl, rfl, fun _ => rfl⟩⟩
  have hdecode : decode 0x00000000 = .nop := WordRoundTrip.nop rfl
  rw [busWrite_cmd_of_idle hidle, hdecode, exec_nop]

/-- Settles O29: a word with RSV nonzero or OPCODE in 0x8..0xF is at least 8, so it decodes to ILLEGAL. -/
theorem illegalWordsReportIllegalCommand : Obligations.IllegalWordsReportIllegalCommand := by
  intro s w h
  have hdecode : decode w = .illegal w := decode_of_eight_le (by omega)
  exact ⟨hdecode, by rw [hdecode, exec_illegal]⟩

end Sys2Proof.Machine

/-! The word codec (41_datapath.md R130). -/

namespace Sys2Proof.Machine

/-- Appended bit vectors are positional: the left one counts in units of `2 ^ n`. -/
theorem toNat_append_eq_add {m n : Nat} (x : BitVec m) (y : BitVec n) :
    (x ++ y).toNat = 2 ^ n * x.toNat + y.toNat := by
  rw [BitVec.toNat_append, ← Nat.shiftLeft_add_eq_or_of_lt y.isLt, Nat.shiftLeft_eq, Nat.mul_comm]

/-- LE32 is the little-endian sum of its bytes (R130). -/
theorem wordOfBytes_toNat (b0 b1 b2 b3 : Byte) :
    (wordOfBytes b0 b1 b2 b3).toNat =
      b0.toNat + 2 ^ 8 * b1.toNat + 2 ^ 16 * b2.toNat + 2 ^ 24 * b3.toNat := by
  rw [wordOfBytes, toNat_append_eq_add, toNat_append_eq_add, toNat_append_eq_add]
  omega

/-- Settles O30: with a multiple of 4 bytes, word `k`'s four bytes all lie in the sequence. -/
theorem wordCodecIsLittleEndian : Obligations.WordCodecIsLittleEndian := by
  refine ⟨wordOfBytes_toNat, fun bs _ => ⟨bytesToWords_length bs, fun k hk => ?_⟩, rfl, rfl⟩
  have hbytes : 4 * k + 3 < bs.length := by omega
  exact bytesToWords_getD bs k hbytes

end Sys2Proof.Machine

/-! The key schedule and KEYSCHED (42_key_schedule.md R153, R154, R157). -/

namespace Sys2Proof.Machine

open Sys2Proof.Laws

/-! Subkey initialisation. -/

/-- Each word of the sequence is the one before plus Q32, whatever word it starts from. -/
theorem arithSeq_getD_succ (s0 : Word) {i n : Nat} (h : i + 1 < n) :
    (arithSeq s0 n).getD (i + 1) 0 = (arithSeq s0 n).getD i 0 + q32 := by
  induction n generalizing s0 i with
  | zero => omega
  | succ n ih =>
    have hi : i < n := Nat.lt_of_succ_lt_succ h
    rw [arithSeq, List.getD_cons_succ]
    cases i with
    | zero =>
      obtain ⟨n, rfl⟩ := Nat.exists_eq_succ_of_ne_zero hi.ne'
      rfl
    | succ i =>
      rw [List.getD_cons_succ]
      exact ih (add32 s0 q32) hi

/-- Settles O33: `initialSubkeys` is the sequence of 44 words from P32 with the increment Q32. -/
theorem subkeyInitialisationFollowsTheRecurrence : Obligations.SubkeyInitialisationFollowsTheRecurrence := by
  refine ⟨arithSeq_length p32 tSub, rfl, fun i hi => ?_⟩
  have hlast : i + 1 < tSub := Nat.succ_lt_succ hi
  exact arithSeq_getD_succ p32 hlast

/-! The mixing loop. -/

theorem mixIter_ka (c : Nat) (m : MixRegs) :
    (mixIter c m).ka = rotl (m.s.getD m.i 0 + m.ka + m.kb) 3 := rfl

/-- The KB line, with its amount as a number: the low five bits of the new KA plus the old KB. -/
theorem mixIter_kb (c : Nat) (m : MixRegs) :
    (mixIter c m).kb =
      rotl (m.l.getD m.j 0 + (mixIter c m).ka + m.kb) (((mixIter c m).ka + m.kb).toNat % 32) := by
  rw [← amt_eq_mod]
  rfl

theorem mixIter_s (c : Nat) (m : MixRegs) : (mixIter c m).s = m.s.set m.i (mixIter c m).ka := rfl

theorem mixIter_l (c : Nat) (m : MixRegs) : (mixIter c m).l = m.l.set m.j (mixIter c m).kb := rfl

/-- A word array after a write to one place inside it: the new word there, the old ones everywhere else. -/
theorem getD_set_of_lt {ws : List Word} {i : Nat} (hi : i < ws.length) (w : Word) (n : Nat) :
    (ws.set i w).getD n 0 = if n = i then w else ws.getD n 0 := by
  rw [List.getD_eq_getElem?_getD, List.getD_eq_getElem?_getD]
  split
  · next heq => rw [heq, List.getElem?_set_self hi, Option.getD_some]
  · next hne => rw [List.getElem?_set_ne (Ne.symm hne)]

theorem mixLoop_eq_iterate (c n : Nat) (m : MixRegs) : mixLoop c n m = (mixIter c)^[n] m := by
  induction n generalizing m with
  | zero => rfl
  | succ n ih => rw [mixLoop, ih, Function.iterate_succ_apply]

/-- Settles O34: each register of an iteration by its own line of R154, and the loop is the iterate of that step. -/
theorem mixingLoopFollowsTheRule : Obligations.MixingLoopFollowsTheRule := by
  constructor
  · intro c m hi hj
    refine ⟨mixIter_ka c m, mixIter_kb c m, fun n => ?_, fun n => ?_, rfl, rfl⟩
    · rw [mixIter_s, getD_set_of_lt hi]
    · rw [mixIter_l, getD_set_of_lt hj]
  · intro key
    rw [keySchedule, mixKey, mixLoop_eq_iterate, mixCount, tSub]

/-! KEYSCHED. -/

/-- A command whose result is a check error leaves the state of that error's code (R224). -/
theorem exec_of_checkError {i : Instr} {s : State} {e : ErrorCode} (h : commandResult i s = CmdResult.checkError e) :
    exec i s = .next (failedWith s (errorNumber e)) := by
  rw [exec_eq, h, finish_checkError]

/-- A key check that fails ends KEYSCHED. -/
theorem keysched_error {s : State} {e : ErrorCode} (h : keyCheck s = some e) :
    commandResult .keysched s = CmdResult.checkError e :=
  checked_error (by rw [h]; rfl)

theorem keyCheck_of_zero {s : State} (h : s.keylen.toNat = 0) : keyCheck s = some .invalidKey := if_pos h

theorem keyCheck_of_large {s : State} (h : 256 < s.keylen.toNat) : keyCheck s = some .lengthRange := by
  have hne : klen s ≠ 0 := Nat.ne_of_gt (Nat.zero_lt_of_lt h)
  rw [keyCheck, if_neg hne]
  exact if_pos h

theorem writesOf_commitSubkeys (key : List Byte) :
    writesOf (commitSubkeys key) = [(.subkey, 0, wordsToBytes (keySchedule key))] := rfl

/-- A completion with one buffer write, from the buffer's base, leaves every byte outside it as before. -/
theorem sameBytesOutside_of_one {us : List Update} {s : State} {b : Buffer} {v : List Byte} (o : Option ErrorCode)
    (h : writesOf us = [(b, 0, v)]) :
    SameBytesOutside s (finish (applyUpdates s us) o) (bufBase b) v.length := by
  intro a ha
  rw [readByte_of_one o h, readByte_memWrite]
  exact if_neg ha

/-- The state KEYSCHED leaves when its check passes. -/
theorem exec_keysched_ok {s : State} (h : keyCheck s = none) :
    exec .keysched s = .next (finish (applyUpdates s (commitSubkeys (keyBytes s))) none) := by
  rw [exec_eq, keysched_ok h]

/-- Settles O36: each error by the check that fails; otherwise the commit's only buffer write is the 176 bytes of the
schedule. -/
theorem keyschedWritesTheSubkeys : Obligations.KeyschedWritesTheSubkeys := by
  intro s
  refine ⟨WordRoundTrip.keysched rfl, fun h => exec_of_checkError (keysched_error (keyCheck_of_zero h)),
    fun h => exec_of_checkError (keysched_error (keyCheck_of_large h)), fun hpos hmax => ?_⟩
  have hlen : (keySchedule (keyBytes s)).length = 44 := keySchedule_length _
  have hwrites := writesOf_commitSubkeys (keyBytes s)
  have hframe := sameBytesOutside_of_one (s := s) none hwrites
  rw [wordsToBytes_length, hlen] at hframe
  exact ⟨_, exec_keysched_ok (keyCheck_none.mpr ⟨hpos, hmax⟩), hlen,
    holdsWords_subkeys hlen (subkeys_of_one none hlen hwrites), hframe, rfl, rfl, rfl, rfl, rfl⟩

end Sys2Proof.Machine

/-! The block transform, ENCB and DECB (43_block_transform.md R173, R177, R178). -/

namespace Sys2Proof.Machine

open Sys2Proof.Laws

/-! One encryption round. -/

/-- The word that becomes the new B: the C line, with its rotation amount, tt, as a number (R173). -/
theorem encRound_b (S : List Word) (r : BlockRegs) (i : Nat) :
    (encRound S r i).b = rotl (r.c ^^^ f r.d) ((f r.b).toNat % 32) + S.getD (2 * i + 1) 0 := by
  rw [← amt_eq_mod]
  rfl

/-- The word that becomes the new D: the A line, with its rotation amount, uu, as a number (R173). -/
theorem encRound_d (S : List Word) (r : BlockRegs) (i : Nat) :
    (encRound S r i).d = rotl (r.a ^^^ f r.b) ((f r.d).toNat % 32) + S.getD (2 * i) 0 := by
  rw [← amt_eq_mod]
  rfl

/-- Settles O39: the new B and D are the lines of C and A; the other registers are copied as the round defines them. -/
theorem encryptionRoundFollowsTheRule : Obligations.EncryptionRoundFollowsTheRule :=
  fun S r i _ _ => ⟨rfl, rfl, rfl, encRound_b S r i, rfl, encRound_d S r i⟩

/-! ENCB and DECB. -/

theorem keyValidCheck_of_clear {s : State} (h : s.status.keyv = false) :
    keyValidCheck s = some .keyNotScheduled := by
  rw [keyValidCheck, h]
  rfl

/-- Without valid subkeys ENCB ends with its check's error. -/
theorem encb_error {s : State} (h : s.status.keyv = false) :
    commandResult .encb s = CmdResult.checkError .keyNotScheduled :=
  checked_error (by rw [keyValidCheck_of_clear h]; rfl)

/-- Without valid subkeys DECB ends with its check's error. -/
theorem decb_error {s : State} (h : s.status.keyv = false) :
    commandResult .decb s = CmdResult.checkError .keyNotScheduled :=
  checked_error (by rw [keyValidCheck_of_clear h]; rfl)

/-- What a completion with one buffer write, from the buffer's base, leaves in that buffer. -/
theorem memRead_written_of_one {us : List Update} {s : State} {b : Buffer} {v : List Byte} (o : Option ErrorCode)
    (h : writesOf us = [(b, 0, v)]) : memRead (finish (applyUpdates s us) o) b 0 v.length = v := by
  rw [memRead_of_one o h, memRead_memWrite]

/-- `t` is `s` after a block transform with the output block `blk`: BLKOUT holds `blk`, DONE = 1, BUSY = 0 and PHASE is
idle, and beside these only the block registers, RND and the count of draws may differ. -/
def BlockTransformed (s t : State) (blk : List Byte) : Prop :=
  memRead t .blkout 0 16 = blk ∧
  SameBytesOutside s t (bufBase .blkout) 16 ∧
  t = { s with
        status := { s.status with busy := false, done := true }
        phase := .idle, mem := t.mem, draws := t.draws
        engine :=
          { s.engine with
            block := t.engine.block
            counters := { s.engine.counters with rnd := t.engine.counters.rnd } } }

/-- A command that commits a 16-byte block to BLKOUT, and the block registers, is a block transform. -/
theorem exec_blockTransform {i : Instr} {s : State} {blk : List Byte} {r : BlockRegs} (hlen : blk.length = 16)
    (h : commandResult i s = { outcome := none, updates := [.memWrite .blkout 0 blk, .blockRegs r] }) :
    ∃ t, exec i s = .next t ∧ BlockTransformed s t blk := by
  have hwrites : writesOf [.memWrite .blkout 0 blk, .blockRegs r] = [(.blkout, 0, blk)] := rfl
  have hout := memRead_written_of_one (s := s) none hwrites
  have hframe := sameBytesOutside_of_one (s := s) none hwrites
  rw [hlen] at hout hframe
  exact ⟨_, by rw [exec_eq, h], hout, hframe, rfl⟩

/-- Settles O42: the check's error without valid subkeys, otherwise a block transform with `encryptBlock` of BLKIN. -/
theorem encbEncryptsTheInputBlock : Obligations.EncbEncryptsTheInputBlock := fun _ =>
  ⟨WordRoundTrip.encb rfl, fun hclear => exec_of_checkError (encb_error hclear),
    fun hset => exec_blockTransform (encryptBlock_length ..) (encb_ok hset)⟩

/-- Settles O43: the check's error without valid subkeys, otherwise a block transform with `decryptBlock` of BLKIN. -/
theorem decbDecryptsTheInputBlock : Obligations.DecbDecryptsTheInputBlock := fun _ =>
  ⟨WordRoundTrip.decb rfl, fun hclear => exec_of_checkError (decb_error hclear),
    fun hset => exec_blockTransform (decryptBlock_length ..) (decb_ok hset)⟩

end Sys2Proof.Machine

/-! The message framer: the depadder, PAD, UNPAD, ENCM and DECM (44_message_framer.md R193 to R201). -/

namespace Sys2Proof.Machine

open Sys2Proof.Laws

/-! The depadder. -/

/-- The scan's two ways to end exclude each other, so each conversely says which bytes are zero. -/
theorem unpad_eq_found_iff (p : List Byte) (k : Nat) (mk : Byte) :
    unpad p = .found k mk ↔
      k < p.length ∧ p.getD k 0 = mk ∧ mk ≠ 0 ∧ ∀ j, k < j → j < p.length → p.getD j 0 = 0 := by
  constructor
  · intro h
    obtain ⟨k', hlt, hne, hzero, hscan⟩ | ⟨-, hscan⟩ := unpadScan_cases p p.length
    · cases hscan.symm.trans h
      exact ⟨hlt, rfl, hne, hzero⟩
    · cases hscan.symm.trans h
  · rintro ⟨hlt, rfl, hne, hzero⟩
    exact unpadScan_found p hlt hne hzero

theorem unpad_eq_notFound_iff (p : List Byte) : unpad p = .notFound ↔ ∀ j, j < p.length → p.getD j 0 = 0 := by
  constructor
  · intro h
    obtain ⟨_, -, -, -, hscan⟩ | ⟨hzero, -⟩ := unpadScan_cases p p.length
    · cases hscan.symm.trans h
    · exact hzero
  · exact unpadScan_notFound p

/-- Settles O45: both outcomes from the scan's case analysis. -/
theorem unpadFindsTheLastNonzeroByte : Obligations.UnpadFindsTheLastNonzeroByte :=
  fun p => ⟨unpad_eq_found_iff p, unpad_eq_notFound_iff p⟩

/-! The checks. -/

/-- The first failing check of a command is its error (R222). -/
theorem exec_of_failedCheck {i : Instr} {s : State} {cs : List (Option ErrorCode)} {r : CmdResult} {e : ErrorCode}
    (hresult : commandResult i s = checked cs r) (h : firstError cs = some e) :
    exec i s = .next (failedWith s (errorNumber e)) :=
  exec_of_checkError (hresult.trans (checked_error h))

theorem firstError_of_head {c : Option ErrorCode} {e : ErrorCode} (h : c = some e) (cs : List (Option ErrorCode)) :
    firstError (c :: cs) = some e := by
  rw [h, firstError]

theorem firstError_of_tail {c : Option ErrorCode} {cs : List (Option ErrorCode)} {e : ErrorCode} (hpass : c = none)
    (h : firstError cs = some e) : firstError (c :: cs) = some e := by
  rw [hpass, firstError, h]

theorem encLengthCheck_of_large {s : State} (h : 4095 < s.msglen.toNat) : encLengthCheck s = some .lengthRange :=
  if_pos h

theorem decLengthCheck_of_partialBlock {s : State} (h : s.msglen.toNat = 0 ∨ s.msglen.toNat % 16 ≠ 0) :
    decLengthCheck s = some .invalidInputLength := if_pos h

theorem decLengthCheck_of_large {s : State} (hblocks : s.msglen.toNat % 16 = 0) (h : 4096 < s.msglen.toNat) :
    decLengthCheck s = some .lengthRange := by
  have hwhole : ¬ (mlen s = 0 ∨ mlen s % 16 ≠ 0) := by simp only [mlen]; omega
  rw [decLengthCheck, if_neg hwhole]
  exact if_pos h

/-! PAD. -/

theorem pad_msgBytes_length (s : State) : (pad (msgBytes s)).length = 16 * (s.msglen.toNat / 16 + 1) := by
  rw [pad_length, msgBytes_length]

/-- The padded length is OUTLEN exactly: the largest, 4096, fits its 13 bits. -/
theorem ofNat_pad_length_toNat {s : State} (h : s.msglen.toNat ≤ 4095) :
    (BitVec.ofNat 13 (pad (msgBytes s)).length).toNat = 16 * (s.msglen.toNat / 16 + 1) := by
  rw [pad_msgBytes_length, BitVec.toNat_ofNat]
  omega

/-- Settles O47: the check's error, or one write, of the padded message, to MSGOUT. -/
theorem padWritesThePaddedMessage : Obligations.PadWritesThePaddedMessage := by
  intro s
  refine ⟨WordRoundTrip.pad rfl,
    fun hlarge => exec_of_failedCheck (i := .pad) rfl (firstError_of_head (encLengthCheck_of_large hlarge) []),
    fun hfits => ?_⟩
  have hlen : (pad (msgBytes s)).length = s.msglen.toNat + (16 - s.msglen.toNat % 16) := by
    rw [pad_msgBytes_length]; omega
  have hbytes : pad (msgBytes s) = msgBytes s ++ 0x80 :: zeros (16 - s.msglen.toNat % 16 - 1) := by
    rw [pad, padLen, msgBytes_length, padMarker]
  have hwrites : writesOf [.memWrite .msgout 0 (pad (msgBytes s)), .outlen (pad (msgBytes s)).length] =
      [(.msgout, 0, pad (msgBytes s))] := rfl
  have hout := memRead_written_of_one (s := s) none hwrites
  have hframe := sameBytesOutside_of_one (s := s) none hwrites
  refine ⟨_, (pad (msgBytes s)).length, by rw [exec_eq, pad_ok (encLengthCheck_none.mpr hfits)], hlen, ?_,
    hout.trans hbytes, hframe, rfl⟩
  exact (ofNat_pad_length_toNat hfits).trans (pad_msgBytes_length s).symm

/-! The depadder's report, which ends UNPAD and DECM (R195, R196). -/

/-- The completion of a command whose updates are `us` and then the depadder's for the padded bytes `p`. -/
def depadded (s : State) (us : List Update) (p : List Byte) : State :=
  finish (applyUpdates s (us ++ depadUpdates p.length (unpad p))) (depadOutcome (unpad p))

/-- `t` reports what the depadder finds in the `n` bytes `byteAt`, beside what `st` already holds. -/
def DepadReported (t : State) (st : Status) (n : Nat) (byteAt : Nat → Byte) : Prop :=
  (∀ k, k < n → byteAt k ≠ 0 → (∀ j, k < j → j < n → byteAt j = 0) →
    t.outlen.toNat = k ∧ t.marker = byteAt k ∧
    t.status =
      { st with busy := false, done := true, padwarn := decide (byteAt k ≠ 0x80 ∨ n - k > 16) }) ∧
  ((∀ k, k < n → byteAt k = 0) →
    t.outlen = 0 ∧ t.marker = 0 ∧ t.status = { st with busy := false, done := true, err := true, errcode := 5 })

theorem padwarnOf_eq (n k : Nat) (mk : Byte) : padwarnOf n k mk = decide (mk ≠ 0x80 ∨ n - k > 16) :=
  (Bool.decide_or ..).symm

theorem depadded_reports (s : State) (us : List Update) {p : List Byte} {n : Nat} {byteAt : Nat → Byte}
    (hlen : p.length = n) (hmax : n ≤ 4096) (hbytes : ∀ k, k < n → p.getD k 0 = byteAt k) :
    DepadReported (depadded s us p) (applyUpdates s us).status n byteAt := by
  subst hlen
  constructor
  · intro k hlt hne hzero
    have hfound : unpad p = .found k (byteAt k) :=
      (unpad_eq_found_iff p k _).mpr ⟨hlt, hbytes k hlt, hne, fun j h1 h2 => (hbytes j h2).trans (hzero j h1 h2)⟩
    obtain ⟨houtlen, hmarker, hstatus⟩ := finish_depad_found us s p.length k (byteAt k)
    rw [padwarnOf_eq] at hstatus
    rw [depadded, hfound, depadOutcome]
    refine ⟨?_, hmarker, hstatus⟩
    rw [houtlen, BitVec.toNat_ofNat]
    exact Nat.mod_eq_of_lt (by omega)
  · intro hzero
    have hnone : unpad p = .notFound :=
      (unpad_eq_notFound_iff p).mpr fun j hj => (hbytes j hj).trans (hzero j hj)
    rw [depadded, hnone]
    exact finish_depad_notFound us s p.length

/-- Beside OUTLEN, MARKER and STATUS the depadder reaches only SCAN and the count of draws. -/
theorem depadded_frame (s : State) (us : List Update) (p : List Byte) :
    depadded s us p =
      { applyUpdates s us with
        status := (depadded s us p).status, phase := .idle, mem := (depadded s us p).mem
        outlen := (depadded s us p).outlen, marker := (depadded s us p).marker, draws := (depadded s us p).draws
        engine :=
          { (applyUpdates s us).engine with
            counters :=
              { (applyUpdates s us).engine.counters with scan := (depadded s us p).engine.counters.scan } } } := by
  rw [depadded, applyUpdates_append]
  cases unpad p <;> rfl

/-- The depadder writes no buffer. -/
theorem writesOf_append_depadUpdates {us : List Update} {ws : List (Buffer × Nat × List Byte)} (h : writesOf us = ws)
    (n : Nat) (d : Depad) : writesOf (us ++ depadUpdates n d) = ws := by
  rw [writesOf_append, writesOf_depadUpdates, List.append_nil, h]

/-! UNPAD. -/

/-- UNPAD with legal lengths copies its input to MSGOUT and depads it. -/
theorem exec_unpad_ok {s : State} (h : decLengthCheck s = none) :
    exec .unpad s = .next (depadded s [.memWrite .msgout 0 (msgBytes s)] (msgBytes s)) := by
  rw [exec_eq, unpad_ok h, depadded, msgBytes_length]
  rfl

/-- Settles O48: each check's error, or the copy to MSGOUT and the depadder's report on the input. -/
theorem unpadReportsMarkerAndLength : Obligations.UnpadReportsMarkerAndLength := by
  intro s
  refine ⟨WordRoundTrip.unpad rfl,
    fun hpartial =>
      exec_of_failedCheck (i := .unpad) rfl (firstError_of_head (decLengthCheck_of_partialBlock hpartial) []),
    fun hblocks hlarge =>
      exec_of_failedCheck (i := .unpad) rfl (firstError_of_head (decLengthCheck_of_large hblocks hlarge) []),
    fun hpos hblocks hmax => ?_⟩
  have hwrites : writesOf [.memWrite .msgout 0 (msgBytes s)] = [(.msgout, 0, msgBytes s)] := rfl
  obtain ⟨hfound, hnone⟩ := depadded_reports s [.memWrite .msgout 0 (msgBytes s)] (msgBytes_length s) hmax
    (fun k hk => msgBytes_getD s hk)
  refine ⟨_, exec_unpad_ok (decLengthCheck_none.mpr ⟨hpos, hblocks, hmax⟩), ?_, ?_, hfound, hnone,
    depadded_frame s [.memWrite .msgout 0 (msgBytes s)] (msgBytes s)⟩
  · rw [← msgBytes_length]
    exact memRead_written_of_one _ (writesOf_append_depadUpdates hwrites _ _)
  · rw [← msgBytes_length]
    exact sameBytesOutside_of_one _ (writesOf_append_depadUpdates hwrites _ _)

/-! What a completion leaves. -/

/-- Everything a completion can change; the rest of the state is as before. -/
theorem completion_frame (s : State) (us : List Update) (o : Option ErrorCode) :
    finish (applyUpdates s us) o =
      { s with
        status := (finish (applyUpdates s us) o).status, phase := .idle, mem := (finish (applyUpdates s us) o).mem
        outlen := (finish (applyUpdates s us) o).outlen, marker := (finish (applyUpdates s us) o).marker
        engine := (finish (applyUpdates s us) o).engine, draws := (finish (applyUpdates s us) o).draws } := by
  obtain ⟨hirqen, hkeylen, hmsglen, hopw, -, hinputs, hresp, hresets, -⟩ := applyUpdates_fixed us s
  exact State.ext rfl hirqen hkeylen hmsglen rfl rfl rfl rfl hopw rfl hinputs hresp rfl hresets

/-- Byte `k` of those written to MSGOUT reads back. -/
theorem readByte_msgout_of_two {us : List Update} {s : State} {S : List Word} {v : List Byte} (o : Option ErrorCode)
    (h : writesOf us = [(.subkey, 0, wordsToBytes S), (.msgout, 0, v)]) {k : Nat} (hk : k < v.length) :
    readByte (finish (applyUpdates s us) o) (0x2000 + k) = v.getD k 0 := by
  have hinside : bufBase .msgout + 0 ≤ 0x2000 + k ∧ 0x2000 + k < bufBase .msgout + 0 + v.length := by
    simp only [bufBase]; omega
  rw [readByte_of_two o h, readByte_memWrite, if_pos hinside]
  exact congrArg (v.getD · 0) (Nat.add_sub_cancel_left 0x2000 k)

/-! ENCM. -/

/-- Block `k` of an encrypted message is the encrypted block `k` of the padded message. -/
theorem blockAt_encryptMessage (key m : List Byte) {k : Nat} (h : k < m.length / 16 + 1) :
    blockAt (encryptMessage key m) k = encryptBlock (blockAt (pad m) k) (keySchedule key) := by
  rw [← pad_blocks] at h
  exact blockAt_mapBlocks (fun b => encryptBlock_length b _) (pad m) h

/-- Settles O49: each check's error in its order, or the schedule to SUBKEY and the encrypted blocks to MSGOUT. -/
theorem encmEncryptsTheMessage : Obligations.EncmEncryptsTheMessage := by
  intro s
  refine ⟨WordRoundTrip.encm rfl,
    fun hzero => exec_of_failedCheck (i := .encm) rfl (firstError_of_head (keyCheck_of_zero hzero) _),
    fun hlarge => exec_of_failedCheck (i := .encm) rfl (firstError_of_head (keyCheck_of_large hlarge) _),
    fun hpos hmax hlarge => ?_, fun hpos hmax hfits => ?_⟩
  · have hkey := keyCheck_none.mpr ⟨hpos, hmax⟩
    have hlength := firstError_of_head (encLengthCheck_of_large hlarge) []
    exact exec_of_failedCheck (i := .encm) rfl (firstError_of_tail hkey hlength)
  · have hkey := keyCheck_none.mpr ⟨hpos, hmax⟩
    have hlength := encLengthCheck_none.mpr hfits
    have hwrites := writesOf_encm (keyBytes s) (msgBytes s)
    have hlen : (encryptMessage (keyBytes s) (msgBytes s)).length = 16 * (s.msglen.toNat / 16 + 1) := by
      rw [encryptMessage_length, pad_msgBytes_length]
    refine ⟨_, s.msglen.toNat / 16 + 1, by rw [exec_eq, encm_ok hkey hlength], rfl, ofNat_pad_length_toNat hfits,
      holdsWords_of_two none (keySchedule_length _) hwrites, fun k hk => ?_, fun a hmsgout hsubkey => ?_, rfl, rfl⟩
    · rw [memRead_msgout_of_two none hwrites (by omega)]
      exact blockAt_encryptMessage _ _ (by rwa [msgBytes_length])
    · rw [← hlen] at hmsgout
      exact readByte_outside_two none (keySchedule_length _) hwrites hmsgout hsubkey

/-! DECM. -/

/-- The updates of DECM before the depadder's (R201 steps 1 and 2). -/
def decmBlockUpdates (key ct : List Byte) : List Update :=
  commitSubkeys key ++
    [ .memWrite .msgout 0 (decryptMessage key ct),
      .blockRegs (decryptRegs (blockAt ct (ct.length / 16 - 1)) (keySchedule key)),
      .blockIndex (ct.length / 16) ]

theorem writesOf_decmBlockUpdates (key ct : List Byte) :
    writesOf (decmBlockUpdates key ct) =
      [(.subkey, 0, wordsToBytes (keySchedule key)), (.msgout, 0, decryptMessage key ct)] := rfl

/-- Block `k` of a decrypted ciphertext is its decrypted block `k`. -/
theorem blockAt_decryptMessage (key ct : List Byte) {k : Nat} (h : k < ct.length / 16) :
    blockAt (decryptMessage key ct) k = decryptBlock (blockAt ct k) (keySchedule key) :=
  blockAt_mapBlocks (fun b => decryptBlock_length b _) ct h

theorem decryptMessage_msgBytes_length {s : State} (h : s.msglen.toNat % 16 = 0) :
    (decryptMessage (keyBytes s) (msgBytes s)).length = s.msglen.toNat := by
  rw [← msgBytes_length] at h
  rw [decryptMessage_length _ h, msgBytes_length]

/-- Block `k` of the input message is read at `16 * k`. -/
theorem blockAt_msgBytes (s : State) {k : Nat} (h : k < s.msglen.toNat / 16) :
    blockAt (msgBytes s) k = memRead s .msgin (16 * k) 16 := by
  have hinside : 16 * k + 16 ≤ mlen s := by simp only [mlen]; omega
  exact memRead_part s .msgin hinside

/-- DECM with legal lengths decrypts into MSGOUT and depads the plaintext. -/
theorem exec_decm_ok {s : State} (hkey : keyCheck s = none) (hlength : decLengthCheck s = none) :
    exec .decm s =
      .next (depadded s (decmBlockUpdates (keyBytes s) (msgBytes s)) (decryptMessage (keyBytes s) (msgBytes s))) := by
  obtain ⟨-, hblocks, -⟩ := decLengthCheck_none.mp hlength
  rw [exec_eq, decm_ok hkey hlength, depadded, decryptMessage_msgBytes_length hblocks, ← msgBytes_length]
  rfl

/-- Settles O50: each check's error in its order, or the schedule to SUBKEY, the decrypted blocks to MSGOUT and the
depadder's report on them. -/
theorem decmDecryptsAndDepads : Obligations.DecmDecryptsAndDepads := by
  intro s
  refine ⟨WordRoundTrip.decm rfl,
    fun hzero => exec_of_failedCheck (i := .decm) rfl (firstError_of_head (keyCheck_of_zero hzero) _),
    fun hlarge => exec_of_failedCheck (i := .decm) rfl (firstError_of_head (keyCheck_of_large hlarge) _),
    fun hpos hmax => ?_, fun hpos hmax hne hblocks hfits => ?_⟩
  · have hkey := keyCheck_none.mpr ⟨hpos, hmax⟩
    constructor
    · intro hpartial
      have hlength := firstError_of_head (decLengthCheck_of_partialBlock hpartial) []
      exact exec_of_failedCheck (i := .decm) rfl (firstError_of_tail hkey hlength)
    · intro hblocks hlarge
      have hlength := firstError_of_head (decLengthCheck_of_large hblocks hlarge) []
      exact exec_of_failedCheck (i := .decm) rfl (firstError_of_tail hkey hlength)
  · have hkey := keyCheck_none.mpr ⟨hpos, hmax⟩
    have hlength := decLengthCheck_none.mpr ⟨hne, hblocks, hfits⟩
    have hlen := decryptMessage_msgBytes_length hblocks
    have hschedule := keySchedule_length (keyBytes s)
    have hwrites := writesOf_append_depadUpdates (writesOf_decmBlockUpdates (keyBytes s) (msgBytes s))
    obtain ⟨hfound, hnone⟩ := depadded_reports s (decmBlockUpdates (keyBytes s) (msgBytes s)) hlen hfits
      (fun k hk => (readByte_msgout_of_two _ (hwrites _ _) (hk.trans_eq hlen.symm)).symm)
    refine ⟨_, exec_decm_ok hkey hlength, holdsWords_of_two _ hschedule (hwrites _ _), fun k hk => ?_,
      fun a hmsgout hsubkey => ?_, hfound, hnone, completion_frame ..⟩
    · rw [← blockAt_msgBytes s hk, ← blockAt_decryptMessage _ _ (by rwa [msgBytes_length])]
      exact memRead_msgout_of_two _ (hwrites _ _) (by omega)
    · rw [← hlen] at hmsgout
      exact readByte_outside_two _ hschedule (hwrites _ _) hmsgout hsubkey

end Sys2Proof.Machine

/-! The failed checks, the interrupt line and the idle engine (60_exceptions.md R221 to R236). -/

namespace Sys2Proof.Machine

/-! The checks each command makes, in the order of R222. -/

/-- The key checks come first in every command that runs a key schedule. -/
theorem exec_of_failedKeyCheck {i : Instr} {s : State} {e : ErrorCode} (hi : i = .keysched ∨ i = .encm ∨ i = .decm)
    (h : keyCheck s = some e) : exec i s = .next (failedWith s (errorNumber e)) := by
  have hfirst := firstError_of_head h
  obtain rfl | rfl | rfl := hi
  · exact exec_of_failedCheck (i := .keysched) rfl (hfirst [])
  · exact exec_of_failedCheck (i := .encm) rfl (hfirst [encLengthCheck s])
  · exact exec_of_failedCheck (i := .decm) rfl (hfirst [decLengthCheck s])

/-- The length check of PAD, and of ENCM once its key checks have passed. -/
theorem exec_of_failedEncLengthCheck {i : Instr} {s : State} {e : ErrorCode}
    (hi : i = .pad ∨ (i = .encm ∧ 1 ≤ s.keylen.toNat ∧ s.keylen.toNat ≤ 256)) (h : encLengthCheck s = some e) :
    exec i s = .next (failedWith s (errorNumber e)) := by
  have hfirst := firstError_of_head h []
  obtain rfl | ⟨rfl, hkey⟩ := hi
  · exact exec_of_failedCheck (i := .pad) rfl hfirst
  · exact exec_of_failedCheck (i := .encm) rfl (firstError_of_tail (keyCheck_none.mpr hkey) hfirst)

/-- The length checks of UNPAD, and of DECM once its key checks have passed. -/
theorem exec_of_failedDecLengthCheck {i : Instr} {s : State} {e : ErrorCode}
    (hi : i = .unpad ∨ (i = .decm ∧ 1 ≤ s.keylen.toNat ∧ s.keylen.toNat ≤ 256)) (h : decLengthCheck s = some e) :
    exec i s = .next (failedWith s (errorNumber e)) := by
  have hfirst := firstError_of_head h []
  obtain rfl | ⟨rfl, hkey⟩ := hi
  · exact exec_of_failedCheck (i := .unpad) rfl hfirst
  · exact exec_of_failedCheck (i := .decm) rfl (firstError_of_tail (keyCheck_none.mpr hkey) hfirst)

/-- Settles O52: each row of R221 names the check that fails, and the check's place in R222 says it is the first. -/
theorem failedChecksChangeOnlyStatus : Obligations.FailedChecksChangeOnlyStatus := by
  intro s i
  refine ⟨fun hi => ⟨fun hzero => ?_, fun hlarge => ?_⟩, fun hi hlarge => ?_,
    fun hi => ⟨fun hpartial => ?_, fun hblocks hlarge => ?_⟩⟩
  · exact exec_of_failedKeyCheck hi (keyCheck_of_zero hzero)
  · exact exec_of_failedKeyCheck hi (keyCheck_of_large hlarge)
  · exact exec_of_failedEncLengthCheck hi (encLengthCheck_of_large hlarge)
  · exact exec_of_failedDecLengthCheck hi (decLengthCheck_of_partialBlock hpartial)
  · exact exec_of_failedDecLengthCheck hi (decLengthCheck_of_large hblocks hlarge)

/-! The interrupt line. -/

theorem irq_iff (s : State) :
    irq s = true ↔
      (s.status.done = true ∧ s.irqen.doneIe = true) ∨ (s.status.err = true ∧ s.irqen.errIe = true) := by
  simp only [irq, Bool.or_eq_true, Bool.and_eq_true]

/-- With neither source up there is no interrupt, whatever is enabled. -/
theorem irq_of_sources_clear {s : State} (hdone : s.status.done = false) (herr : s.status.err = false) :
    irq s = false := by
  rw [irq, hdone, herr]
  rfl

/-- With neither enable set there is no interrupt, whatever STATUS reports. -/
theorem irq_of_disabled {s : State} (hdone : s.irqen.doneIe = false) (herr : s.irqen.errIe = false) :
    irq s = false := by
  rw [irq, hdone, herr, Bool.and_false, Bool.and_false]
  rfl

/-- Settles O54: the STATUS write and the acceptance clear both sources, the IRQEN write both enables. -/
theorem irqIsALevelOfStatusAndEnables : Obligations.IrqIsALevelOfStatusAndEnables := by
  intro s
  refine ⟨irq_iff s, ?_, ?_, fun hidle w => ?_⟩
  · rw [busWrite_status, clearStatus_eq_ite]
    exact irq_of_sources_clear rfl rfl
  · rw [busWrite_irqen]
    exact irq_of_disabled rfl rfl
  · rw [busWrite_cmd_of_idle hidle]
    exact irq_of_sources_clear rfl rfl

/-! The idle engine. -/

/-- Settles O59: the invariant ties BUSY = 0 to PHASE = IDLE, in which the engine has no step. -/
theorem idleEngineKeepsEveryState : Obligations.IdleEngineKeepsEveryState :=
  fun _ hinv hidle => engineStep_idle (hinv.phase.mpr hidle)

end Sys2Proof.Machine

/-! The invariant of every reachable state (10_state.md R25, R40, 20_memory.md R66). -/

namespace Sys2Proof.Machine

/-- Settles O6: no flag is set, nothing is stored and nothing is long. -/
theorem resetMeetsTheInvariant : Obligations.ResetMeetsTheInvariant where
  status := ⟨nofun, nofun, fun _ => rfl, Nat.zero_le _⟩
  phase := ⟨fun _ => rfl, fun _ => rfl⟩
  mem := ⟨rfl, nofun⟩
  subkey := nofun
  outlen := Nat.zero_le _

theorem hostRead_inv {s : State} (hs : s.Inv) (a : Addr) : (hostRead s a).Inv := inv_of_fields hs rfl rfl rfl rfl

theorem hostWrite_inv {s : State} (hs : s.Inv) (a : Addr) (v : Word) : (hostWrite s a v).Inv :=
  inv_of_fields (busWrite_inv s a v hs) rfl rfl rfl rfl

theorem engineStep_inv {s t : State} (hs : s.Inv) (h : engineStep s = .next t) : t.Inv := by
  cases hphase : s.phase with
  | idle =>
    rw [engineStep_idle hphase] at h
    cases h
    exact hs
  | running =>
    rw [engineStep_running hphase] at h
    exact exec_inv hs h

/-- Whatever the state before it was, the reset input leads to a good one. -/
theorem assertReset_inv (s : State) : (assertReset s).Inv := inv_of_fields resetMeetsTheInvariant rfl rfl rfl rfl

theorem move_inv {e : Event} {s t : State} (hs : s.Inv) (h : move e s = .next t) : t.Inv := by
  cases e with
  | hostRead a => cases h; exact hostRead_inv hs a
  | hostWrite a v => cases h; exact hostWrite_inv hs a v
  | engine => exact engineStep_inv hs h
  | reset => cases h; exact assertReset_inv s

/-- Settles O7: a step is the engine's or one move of the list, and each of the four moves keeps the invariant. -/
theorem everyStepKeepsTheInvariant : Obligations.EveryStepKeepsTheInvariant := by
  intro s t hs h
  cases hinputs : s.inputs with
  | nil =>
    rw [step_of_nil hinputs] at h
    exact engineStep_inv hs h
  | cons e rest =>
    have hrest : State.Inv { s with inputs := rest } := inv_of_fields hs rfl rfl rfl rfl
    rw [step_of_cons hinputs] at h
    exact move_inv hrest h

end Sys2Proof.Machine

/-! Encoding and decoding (30_encoding.md R90 to R94). -/

namespace Sys2Proof.Machine

open Sys2Proof.Laws

/-- The word of a well-formed command decodes to it, whichever row it is. -/
theorem decode_encode {i : Instr} (h : i.wellFormed = true) : decode (encode i) = i := by
  cases i with
  | nop => exact WordRoundTrip.nop h
  | keysched => exact WordRoundTrip.keysched h
  | encb => exact WordRoundTrip.encb h
  | decb => exact WordRoundTrip.decb h
  | pad => exact WordRoundTrip.pad h
  | unpad => exact WordRoundTrip.unpad h
  | encm => exact WordRoundTrip.encm h
  | decm => exact WordRoundTrip.decm h
  | illegal w => exact WordRoundTrip.illegal w h

/-- The bytes of a word are the command word the decoder reads first. -/
theorem decodeBytes_bytesOfWord_append (w : Word) (rest : List Byte) :
    decodeBytes (bytesOfWord w ++ rest) = .ok (decode w, rest) := by
  simp only [bytesOfWord, List.cons_append, List.nil_append, decodeBytes, wordOfBytes_extract]

/-- Settles O21: the four encoded bytes are read as the command's word, which decodes to the command. -/
theorem decodeOfEncodedBytesIsTheCommand : Obligations.DecodeOfEncodedBytesIsTheCommand := by
  intro i rest hwf
  rw [encodeBytes, decodeBytes_bytesOfWord_append, decode_encode hwf]

/-- Settles O22: a word from 8 on is carried by `illegal`, and the eight below are their rows' encodings. -/
theorem encodeOfDecodedWordIsTheWord : Obligations.EncodeOfDecodedWordIsTheWord := by
  intro w
  by_cases h8 : 8 ≤ w.toNat
  · rw [decode_of_eight_le h8]
    exact ⟨(isIllegalWord_iff_eight_le w).mpr h8, rfl⟩
  · obtain ⟨n, rfl⟩ : ∃ n : Fin 8, w = BitVec.ofNat 32 n :=
      ⟨⟨w.toNat, Nat.lt_of_not_le h8⟩, (BitVec.ofNat_toNat 32 w).symm⟩
    revert n
    decide

/-- Settles O19: the eight words are their rows' encodings, and the words from 8 to 15 name no command. -/
theorem everyOpcodeValueDecodesToItsRow : Obligations.EveryOpcodeValueDecodesToItsRow := by
  refine ⟨decode_encode (i := .nop) rfl, decode_encode (i := .keysched) rfl, decode_encode (i := .encb) rfl,
    decode_encode (i := .decb) rfl, decode_encode (i := .pad) rfl, decode_encode (i := .unpad) rfl,
    decode_encode (i := .encm) rfl, decode_encode (i := .decm) rfl, fun k hk => decode_of_eight_le ?_⟩
  rw [BitVec.toNat_ofNat]
  omega

end Sys2Proof.Machine

/-! What the bus returns at each location (20_memory.md R61 to R74). -/

namespace Sys2Proof.Machine

/-! Reads. -/

/-- A read returns the location's value unless CMD, the gate on SUBKEY or the busy case is in the way (R61). -/
theorem busRead_value {s : State} {a : Addr} {loc : Location} (h4 : a.toNat % 4 = 0)
    (hl : locate a.toNat = some loc) (hcmd : loc ≠ .cmd) (hfree : (engineWritten loc && s.status.busy) = false)
    (hgate : (isSubkey loc && !s.status.keyv) = false) : busRead s a = (locValue s loc, false) := by
  rw [busRead_aligned h4 hl, if_neg hcmd, hfree, hgate]
  rfl

/-- A read of a window that neither BUSY nor the gate on SUBKEY hides returns its four bytes (R63). -/
theorem busRead_window {s : State} {a : Addr} {b : Buffer} {k : Nat} (h4 : a.toNat % 4 = 0)
    (hl : locate a.toNat = some (.window b k)) (hfree : (bufReadOnly b && s.status.busy) = false)
    (hgate : b = .subkey → s.status.keyv = true) :
    busRead s a =
      (wordOfBytes (readByte s a.toNat) (readByte s (a.toNat + 1)) (readByte s (a.toNat + 2))
        (readByte s (a.toNat + 3)), false) := by
  have hkeyv : (isSubkey (.window b k) && !s.status.keyv) = false := by
    simpa [isSubkey] using hgate
  rw [busRead_value h4 hl nofun hfree hkeyv, locValue, windowWord_eq, ← (locate_window hl).1]

/-- While BUSY = 1 an engine-written location reads as the free word of the current draw (R71). -/
theorem busRead_free {s : State} {a : Addr} {loc : Location} (hb : s.status.busy = true) (h4 : a.toNat % 4 = 0)
    (hl : locate a.toNat = some loc) (hout : engineWritten loc = true) :
    busRead s a = (Config.anyWord s.draws 0, false) := by
  have hcmd : loc ≠ .cmd := by rintro rfl; cases hout
  rw [busRead_aligned h4 hl, if_neg hcmd, hout, hb]
  rfl

/-- The windows of KEY, BLKIN and MSGIN, which the host writes. -/
theorem locate_input {a : Nat}
    (h : (0x0100 ≤ a ∧ a ≤ 0x01FF) ∨ (0x0300 ≤ a ∧ a ≤ 0x030F) ∨ (0x1000 ≤ a ∧ a ≤ 0x1FFF)) :
    ∃ b k, locate a = some (.window b k) ∧ bufReadOnly b = false := by
  obtain hkey | hblkin | hmsgin := h
  · exact ⟨_, _, locate_key hkey, rfl⟩
  · exact ⟨_, _, locate_blkin hblkin, rfl⟩
  · exact ⟨_, _, locate_msgin hmsgin, rfl⟩

theorem ne_subkey_of_input {b : Buffer} (h : bufReadOnly b = false) : b ≠ .subkey := by
  rintro rfl
  cases h

/-- An input window reads its bytes whether the engine is busy or not. -/
theorem busRead_input {s : State} {a : Addr} {b : Buffer} {k : Nat} (h4 : a.toNat % 4 = 0)
    (hl : locate a.toNat = some (.window b k)) (hin : bufReadOnly b = false) :
    busRead s a =
      (wordOfBytes (readByte s a.toNat) (readByte s (a.toNat + 1)) (readByte s (a.toNat + 2))
        (readByte s (a.toNat + 3)), false) :=
  busRead_window h4 hl (by rw [hin, Bool.false_and]) fun hsub => absurd hsub (ne_subkey_of_input hin)

theorem busRead_id (s : State) : busRead s 0x0000 = (0x52433614, false) :=
  busRead_aligned (loc := .id) rfl rfl

theorem busRead_param (s : State) : busRead s 0x0004 = (0x402C1000, false) :=
  busRead_aligned (loc := .param) rfl rfl

theorem busRead_cmd (s : State) : busRead s 0x0008 = (0, false) := busRead_aligned (loc := .cmd) rfl rfl

theorem busRead_status (s : State) : busRead s 0x000C = (statusWord s.status, false) :=
  busRead_aligned (loc := .status) rfl rfl

theorem busRead_keylen (s : State) : busRead s 0x0014 = (s.keylen.setWidth 32, false) :=
  busRead_aligned (loc := .keylen) rfl rfl

theorem busRead_msglen (s : State) : busRead s 0x0018 = (s.msglen.setWidth 32, false) :=
  busRead_aligned (loc := .msglen) rfl rfl

/-- The locations below OUTLEN, which neither BUSY nor KEYV hides (10_state.md R21 to R29). -/
theorem busRead_hostRegisters (s : State) (a : Addr) :
    (a = 0x0000 → busRead s a = (0x52433614, false)) ∧
    (a = 0x0004 → busRead s a = (0x402C1000, false)) ∧
    (a = 0x0008 → busRead s a = (0, false)) ∧
    (a = 0x000C → busRead s a = (statusWord s.status, false)) ∧
    (a = 0x0010 → busRead s a = (irqenWord s.irqen, false)) ∧
    (a = 0x0014 → busRead s a = (s.keylen.setWidth 32, false)) ∧
    (a = 0x0018 → busRead s a = (s.msglen.setWidth 32, false)) := by
  refine ⟨?_, ?_, ?_, ?_, ?_, ?_, ?_⟩ <;> rintro rfl
  · exact busRead_id s
  · exact busRead_param s
  · exact busRead_cmd s
  · exact busRead_status s
  · exact busRead_irqen s
  · exact busRead_keylen s
  · exact busRead_msglen s

/-- Settles O12: the busy case hides the engine-written locations, and no other. -/
theorem busyReadsOfResultsAreFree : Obligations.BusyReadsOfResultsAreFree := by
  intro s a hb h4
  obtain ⟨hid, hparam, hcmd, hstatus, hirqen, hkeylen, hmsglen⟩ := busRead_hostRegisters s a
  refine ⟨fun hout => ⟨?_, rfl⟩, hid, hparam, hcmd, hstatus, hirqen, hkeylen, hmsglen, fun hin => ?_⟩
  · obtain rfl | rfl | hsubkey | hblkout | hmsgout := hout
    · exact busRead_free (loc := .outlen) hb rfl rfl rfl
    · exact busRead_free (loc := .marker) hb rfl rfl rfl
    · exact busRead_free hb h4 (locate_subkey hsubkey) rfl
    · exact busRead_free hb h4 (locate_blkout hblkout) rfl
    · exact busRead_free hb h4 (locate_msgout hmsgout) rfl
  · obtain ⟨b, k, hl, hro⟩ := locate_input hin
    exact busRead_input h4 hl hro

/-- While BUSY = 0 every window but a gated SUBKEY reads its bytes. -/
theorem busRead_window_of_idle {s : State} {a : Addr} {b : Buffer} {k : Nat} (hidle : s.status.busy = false)
    (h4 : a.toNat % 4 = 0) (hl : locate a.toNat = some (.window b k)) (hgate : b = .subkey → s.status.keyv = true) :
    busRead s a =
      (wordOfBytes (readByte s a.toNat) (readByte s (a.toNat + 1)) (readByte s (a.toNat + 2))
        (readByte s (a.toNat + 3)), false) :=
  busRead_window h4 hl (by rw [hidle, Bool.and_false]) hgate

/-- Settles O13: with BUSY = 0 only the gate on SUBKEY can hide a location's value. -/
theorem idleReadsReturnTheCurrentValue : Obligations.IdleReadsReturnTheCurrentValue := by
  intro s a hidle h4
  obtain ⟨hid, hparam, hcmd, hstatus, hirqen, hkeylen, hmsglen⟩ := busRead_hostRegisters s a
  refine ⟨hid, hparam, hcmd, hstatus, hirqen, hkeylen, hmsglen, ?_, ?_, fun hwindow => ?_⟩
  · rintro rfl
    exact busRead_value (loc := .outlen) rfl rfl nofun (by rw [hidle, Bool.and_false]) rfl
  · rintro rfl
    exact busRead_value (loc := .marker) rfl rfl nofun (by rw [hidle, Bool.and_false]) rfl
  · obtain hkey | ⟨hlo, hhi⟩ | ⟨hlo, hhi⟩ | ⟨hkeyv, hsubkey⟩ := hwindow
    · exact busRead_window_of_idle hidle h4 (locate_key hkey) nofun
    · obtain hin | hout := Nat.lt_or_ge a.toNat 0x0310
      · exact busRead_window_of_idle hidle h4 (locate_blkin ⟨hlo, Nat.le_of_lt_succ hin⟩) nofun
      · exact busRead_window_of_idle hidle h4 (locate_blkout ⟨hout, hhi⟩) nofun
    · obtain hin | hout := Nat.lt_or_ge a.toNat 0x2000
      · exact busRead_window_of_idle hidle h4 (locate_msgin ⟨hlo, Nat.le_of_lt_succ hin⟩) nofun
      · exact busRead_window_of_idle hidle h4 (locate_msgout ⟨hout, hhi⟩) nofun
    · exact busRead_window_of_idle hidle h4 (locate_subkey hsubkey) fun _ => hkeyv

/-- Settles O11: with BUSY = 0 the gate alone decides between 0 and the window's word, which is S[i]. -/
theorem subkeyReadsAreGatedByKeyValid : Obligations.SubkeyReadsAreGatedByKeyValid := by
  intro s i hi hidle
  have haddr : (BitVec.ofNat 16 (0x0200 + 4 * i)).toNat = 0x0200 + 4 * i := by
    rw [BitVec.toNat_ofNat]; omega
  have hl : locate (BitVec.ofNat 16 (0x0200 + 4 * i)).toNat = some (.window .subkey (4 * i)) := by
    rw [haddr, locate_subkey (by omega), Nat.add_sub_cancel_left]
  rw [busRead_aligned (by rw [haddr]; omega) hl, if_neg nofun, hidle, Bool.and_false, locValue,
    windowWord_subkey s hi]
  cases s.status.keyv <;> rfl

/-! Bus errors. -/

/-- Settles O14: a refused write is `(s, true)`, and only an unmapped or misaligned read is an error. -/
theorem busErrorsChangeNoState : Obligations.BusErrorsChangeNoState := by
  intro s a v
  constructor
  · intro herr
    obtain h | h | h | ⟨-, -, h | h | h | ⟨b, k, -, -, -, h⟩⟩ := busWrite_cases s a v
    · rw [h]
    all_goals rw [h] at herr; cases herr
  · intro herr
    by_cases h4 : a.toNat % 4 = 0
    · cases hl : locate a.toNat with
      | none => rw [busRead_unmapped hl]
      | some loc => rw [busRead_err_of_mapped h4 hl] at herr; cases herr
    · rw [busRead_misaligned h4]

/-! Writes. -/

/-- While BUSY = 0 a write to an input window stores the word's four bytes (R62). -/
theorem busWrite_input {s : State} {a : Addr} {v : Word} {b : Buffer} {k : Nat} (hidle : s.status.busy = false)
    (h4 : a.toNat % 4 = 0) (hl : locate a.toNat = some (.window b k)) (hin : bufReadOnly b = false) :
    busWrite s a v = (memWrite s b k (bytesOfWord v), false) := by
  have hwritable : ¬ readOnly (.window b k) = true := by rw [readOnly, hin]; nofun
  rw [busWrite_aligned h4 hl, if_neg hwritable, writeLoc, hidle]
  rfl

/-- The four bytes a word leaves at the place it is written to. -/
theorem readByte_memWrite_word (s : State) (b : Buffer) (k : Nat) (v : Word) {i : Nat} (hi : i < 4) :
    readByte (memWrite s b k (bytesOfWord v)) (bufBase b + k + i) = (bytesOfWord v).getD i 0 := by
  have hinside : bufBase b + k ≤ bufBase b + k + i ∧ bufBase b + k + i < bufBase b + k + (bytesOfWord v).length := by
    rw [bytesOfWord_length]; omega
  rw [readByte_memWrite, if_pos hinside, Nat.add_sub_cancel_left]

/-- Settles O17: the write stores `bytesOfWord v` at the address, from where the read puts the word together again. -/
theorem hostWriteToABufferReadsBack : Obligations.HostWriteToABufferReadsBack := by
  intro s a v hidle h4 hrange
  obtain ⟨b, k, hl, hin⟩ := locate_input hrange
  obtain ⟨haddr, -⟩ := locate_window hl
  have hbyte : ∀ i, i < 4 → readByte (memWrite s b k (bytesOfWord v)) (a.toNat + i) = (bytesOfWord v).getD i 0 :=
    fun i hi => haddr ▸ readByte_memWrite_word s b k v hi
  have h0 := hbyte 0 (by decide)
  have h1 := hbyte 1 (by decide)
  have h2 := hbyte 2 (by decide)
  have h3 := hbyte 3 (by decide)
  refine ⟨_, busWrite_input hidle h4 hl hin, ?_, h0, h1, h2, h3, fun x hx => ?_, rfl⟩
  · rw [busRead_input h4 hl hin, h1, h2, h3]
    exact congrArg (·, false) ((congrArg (wordOfBytes · _ _ _) h0).trans (wordOfBytes_extract v))
  · rw [haddr] at hx
    exact (readByte_memWrite s b k (bytesOfWord v) x).trans (if_neg hx)

/-- Settles O18: the move is the response and the next draw, and nothing else. -/
theorem hostReadsChangeNoState : Obligations.HostReadsChangeNoState := fun _ _ => rfl

/-! The length registers. -/

theorem busWrite_keylen_of_idle {s : State} (h : s.status.busy = false) (v : Word) :
    busWrite s 0x0014 v = ({ s with keylen := v.setWidth 9 }, false) := by
  have hkeylen : busWrite s 0x0014 v = writeLoc s .keylen v := busWrite_aligned (loc := .keylen) rfl rfl
  rw [hkeylen, writeLoc, h]
  rfl

theorem busWrite_msglen_of_idle {s : State} (h : s.status.busy = false) (v : Word) :
    busWrite s 0x0018 v = ({ s with msglen := v.setWidth 13 }, false) := by
  have hmsglen : busWrite s 0x0018 v = writeLoc s .msglen v := busWrite_aligned (loc := .msglen) rfl rfl
  rw [hmsglen, writeLoc, h]
  rfl

/-- Keeping the low `n` bits of a word is masking it. -/
theorem setWidth_setWidth_eq_and (v : Word) {n : Nat} (h : n ≤ 32) :
    (v.setWidth n).setWidth 32 = v &&& BitVec.ofNat 32 (2 ^ n - 1) := by
  have hpow : 2 ^ n ≤ 2 ^ 32 := Nat.pow_le_pow_right (by decide) h
  have hmask : (2 ^ n - 1) % 2 ^ 32 = 2 ^ n - 1 := Nat.mod_eq_of_lt (by omega)
  apply BitVec.eq_of_toNat_eq
  rw [BitVec.toNat_and, BitVec.toNat_ofNat, hmask, Nat.and_two_pow_sub_one_eq_mod, BitVec.toNat_setWidth,
    BitVec.toNat_setWidth]
  exact Nat.mod_eq_of_lt ((Nat.mod_lt _ (Nat.two_pow_pos n)).trans_le hpow)

/-- Settles O5: a write keeps the low bits, which read back as the masked word, and the busy engine refuses it. -/
theorem lengthRegistersAreReadBack : Obligations.LengthRegistersAreReadBack := by
  intro s v
  constructor
  · intro hidle
    rw [busWrite_keylen_of_idle hidle, busWrite_msglen_of_idle hidle, busRead_keylen, busRead_msglen,
      setWidth_setWidth_eq_and v (by decide), setWidth_setWidth_eq_and v (by decide)]
    exact ⟨rfl, rfl, rfl, rfl⟩
  · intro hb
    exact ⟨busWrite_of_busy (loc := .keylen) hb rfl nofun nofun,
      busWrite_of_busy (loc := .msglen) hb rfl nofun nofun⟩

/-! Reset (10_state.md R43, 70_reset_and_hazards.md R250). -/

/-- Settles O1: `assertReset` takes every register from `State.reset`, and ID and PARAM are constants. -/
theorem resetPutsEveryRegisterAtItsResetValue : Obligations.ResetPutsEveryRegisterAtItsResetValue := by
  intro s
  exact ⟨assertReset s, rfl, rfl, rfl, rfl, rfl, rfl, rfl, rfl, rfl, fun _ => rfl,
    congrArg Prod.fst (busRead_id _), congrArg Prod.fst (busRead_param _), rfl, rfl, rfl, rfl, rfl, rfl, rfl, rfl⟩

end Sys2Proof.Machine

/-! The bits of the STATUS word (10_state.md R25). -/

namespace Sys2Proof.Machine

/-- STATUS as a number is the sum its layout says: every field fits below the next one's bits. -/
theorem statusWord_toNat (st : Status) :
    (statusWord st).toNat =
      st.busy.toNat + 2 * st.done.toNat + 4 * st.err.toNat + 8 * st.keyv.toNat + 16 * st.padwarn.toNat +
        256 * st.errcode.toNat := by
  have hbusy := st.busy.toNat_le
  have hdone := st.done.toNat_le
  have herr := st.err.toNat_le
  have hkeyv := st.keyv.toNat_le
  have hpadwarn := st.padwarn.toNat_le
  have herrcode := st.errcode.isLt
  rw [statusWord, BitVec.toNat_ofNat]
  omega

/-- A bit of a word, from the word as a number. -/
theorem getLsbD_of_div_mod {w : Word} {i : Nat} {b : Bool} (h : w.toNat / 2 ^ i % 2 = b.toNat) :
    w.getLsbD i = b := by
  rw [BitVec.getLsbD, Nat.testBit_eq_decide_div_mod_eq, h]
  cases b <;> rfl

/-- A bit field of a word, from the word as a number. -/
theorem extractLsb'_of_div_mod {w : Word} {i n : Nat} {x : BitVec n} (h : w.toNat / 2 ^ i % 2 ^ n = x.toNat) :
    w.extractLsb' i n = x := by
  apply BitVec.eq_of_toNat_eq
  rw [BitVec.extractLsb'_toNat, Nat.shiftRight_eq_div_pow, h]

/-- Settles O2: each field is read off the sum, in which the reserved bits have no term. -/
theorem statusWordPlacesEveryField : Obligations.StatusWordPlacesEveryField := by
  intro st
  have hword := statusWord_toNat st
  have hbusy := st.busy.toNat_le
  have hdone := st.done.toNat_le
  have herr := st.err.toNat_le
  have hkeyv := st.keyv.toNat_le
  have hpadwarn := st.padwarn.toNat_le
  have herrcode := st.errcode.isLt
  have hzero3 : (0 : BitVec 3).toNat = 0 := rfl
  have hzero20 : (0 : BitVec 20).toNat = 0 := rfl
  refine ⟨getLsbD_of_div_mod ?_, getLsbD_of_div_mod ?_, getLsbD_of_div_mod ?_, getLsbD_of_div_mod ?_,
    getLsbD_of_div_mod ?_, extractLsb'_of_div_mod ?_, extractLsb'_of_div_mod ?_, extractLsb'_of_div_mod ?_⟩
  all_goals omega

end Sys2Proof.Machine

/-! Engine moves and their completion (40_command_protocol.md R112, R113, 70_reset_and_hazards.md R265). -/

namespace Sys2Proof.Machine

/-- Settles O24: the step takes the move of the list, or the engine's when none is left; its phase decides the rest. -/
theorem engineMoveRunsTheLatchedCommand : Obligations.EngineMoveRunsTheLatchedCommand := by
  refine fun s rest => ⟨fun hphase hinputs => ?_, fun hphase hinputs => ?_, fun hphase hinputs => ?_,
    fun hphase hinputs => ?_⟩
  · rw [step_of_cons hinputs]
    exact engineStep_running hphase
  · rw [step_of_nil hinputs, engineStep_running hphase]
  · rw [step_of_cons hinputs]
    exact engineStep_idle hphase
  · rw [step_of_nil hinputs, engineStep_idle hphase]

/-- A word placed for the next step is accepted whole. -/
theorem withFetchWord_eq (s : State) (w : Word) : s.withFetchWord 32 w.toNat = issueNext s w := by
  rw [State.withFetchWord, Nat.mod_eq_of_lt w.isLt, BitVec.ofNat_toNat, BitVec.setWidth_eq]

/-- Settles O25: the placed word is accepted with the engine's move first, which runs it. -/
theorem placedWordRunsNext : Obligations.PlacedWordRunsNext := by
  intro s w
  obtain ⟨hrun, -⟩ := engineMoveRunsTheLatchedCommand (issueNext s w) s.inputs
  rw [withFetchWord_eq]
  exact hrun rfl rfl

/-- Settles O26: every command is one shared completion, and no update clears KEYV. -/
theorem everyCommandCompletes : Obligations.EveryCommandCompletes := by
  intro i s
  refine ⟨_, exec_eq i s, rfl, rfl, rfl, fun hkeyv => ?_⟩
  rw [finish_status, completeStatus_keyv]
  exact applyUpdates_keyv _ hkeyv

/-- With `n` moves left, the engine is idle after `n` steps and one. -/
theorem run_reaches_idle (es : List Event) {s : State} (hinputs : s.inputs = es) :
    ∃ t, Host.Core.run Sys2Proof.core (es.length + 1) s = .next t ∧ t.phase = .idle := by
  induction es generalizing s with
  | nil =>
    obtain ⟨t, hstep, hidle⟩ := engineStep_next s
    rw [← step_of_nil hinputs] at hstep
    exact ⟨t, run_succ 0 hstep, hidle⟩
  | cons e rest ih =>
    obtain ⟨t, hmove⟩ := move_next e { s with inputs := rest }
    obtain ⟨u, hrun, hidle⟩ := ih (move_inputs hmove)
    rw [← step_of_cons hinputs] at hmove
    exact ⟨u, (run_succ _ hmove).trans hrun, hidle⟩

/-- Settles O27: each step uses up a move, and with none left the engine takes its own step. -/
theorem engineBecomesIdleWithinTheMovesLeft : Obligations.EngineBecomesIdleWithinTheMovesLeft := by
  intro s
  obtain ⟨t, hrun, hidle⟩ := run_reaches_idle s.inputs rfl
  exact ⟨s.inputs.length + 1, t, Nat.le_refl _, hrun, hidle⟩

end Sys2Proof.Machine

/-! The datapath: rotations and the round function (41_datapath.md R132 to R139). -/

namespace Sys2Proof.Machine

/-! Rotations. -/

theorem rotl_mod (x : Word) (n : Nat) : rotl x n = rotl x (n % 32) := by rw [rotl, rotl, Nat.mod_mod]

theorem rotr_mod (x : Word) (n : Nat) : rotr x n = rotr x (n % 32) := by rw [rotr, rotr, Nat.mod_mod]

/-- Rotating right by `n` is rotating left by what is missing to the whole word: the two halves change places. -/
theorem rotr_eq_rotl (x : Word) (n : Nat) : rotr x n = rotl x (32 - n % 32) := by
  have hlt : n % 32 < 32 := Nat.mod_lt n (by decide)
  by_cases hzero : n % 32 = 0
  · simp [rotr, rotl, hzero]
  · have hamount : (32 - n % 32) % 32 = 32 - n % 32 := Nat.mod_eq_of_lt (by omega)
    have hback : 32 - (32 - n % 32) = n % 32 := by omega
    have hne : ¬ 32 - n % 32 = 0 := by omega
    simp only [rotr, rotl, hamount, hback, if_neg hzero, if_neg hne, BitVec.or_comm]

/-- Bit `i` after a rotation to the right comes from the place `n` above, around the end of the word. -/
theorem getLsbD_rotr (x : Word) (n : Nat) {i : Nat} (h : i < 32) :
    (rotr x n).getLsbD i = x.getLsbD ((i + n) % 32) := by
  rw [rotr_eq_rotateRight, BitVec.getLsbD_rotateRight]
  by_cases hinside : i < 32 - n % 32
  · have hplace : (i + n) % 32 = n % 32 + i := by omega
    rw [decide_eq_true hinside, cond_true, hplace]
  · have hplace : (i + n) % 32 = i - (32 - n % 32) := by omega
    rw [decide_eq_false hinside, cond_false, decide_eq_true h, Bool.true_and, hplace]

/-- A rotation to the left moves bit `i` to the place `n` above, from where the one to the right brings it back. -/
theorem getLsbD_rotl (x : Word) (n : Nat) {i : Nat} (h : i < 32) :
    (rotl x n).getLsbD ((i + n) % 32) = x.getLsbD i := by
  rw [← getLsbD_rotr (rotl x n) n h, rotr_rotl]

/-- Settles O31: the two bit laws, and the laws that reduce the amount modulo 32. -/
theorem rotationsMoveEveryBit : Obligations.RotationsMoveEveryBit := fun x n _ hi =>
  ⟨getLsbD_rotl x n hi, getLsbD_rotr x n hi, rotl_mod x n, rotr_mod x n, rfl, rfl, rotl_mod x 32, rotl_mod x 36,
    (rotr_eq_rotl x 1).symm, rotr_eq_rotl x n, rotr_rotl x n, rotl_rotr x n, by decide, by decide, by decide,
    by decide⟩

/-! The round function. -/

/-- The exact product, reduced once, is the product of the reduced factors. -/
theorem ofNat_product (x : Word) :
    BitVec.ofNat 32 (x.toNat * (2 * x.toNat + 1)) = mul32 x (add32 (add32 x x) 1) := by
  rw [BitVec.ofNat_mul, BitVec.ofNat_add, Nat.two_mul, BitVec.ofNat_add, BitVec.ofNat_toNat, BitVec.setWidth_eq]
  rfl

/-- Settles O32: both readings are the definition's product, and the rows of the table are evaluated. -/
theorem roundFunctionIsTheRotatedProduct : Obligations.RoundFunctionIsTheRotatedProduct :=
  ⟨fun x => ⟨by rw [ofNat_product]; rfl, rfl⟩, by decide, by decide, by decide, by decide, by decide, by decide,
    by decide⟩

end Sys2Proof.Machine

/-! What the key schedule depends on (42_key_schedule.md R150, R151, R158). -/

namespace Sys2Proof.Machine

/-- Zero bytes that fit in the key's last word are those the padding adds there itself. -/
theorem padKey_append_zeros (key : List Byte) {n : Nat} (h : n ≤ (4 - key.length % 4) % 4) :
    padKey (key ++ zeros n) = padKey key := by
  have hcount : n + (4 - (key.length + n) % 4) % 4 = (4 - key.length % 4) % 4 := by omega
  rw [padKey, padKey, List.length_append, zeros_length, List.append_assoc, zeros, zeros, zeros,
    List.replicate_append_replicate, hcount]

/-- The schedule sees the key only through its padded bytes. -/
theorem keySchedule_congr {key key' : List Byte} (h : padKey key' = padKey key) :
    keySchedule key' = keySchedule key := by
  simp only [keySchedule, mixKey, keyWords, h]

/-- Settles O35: the two keys have the same padded bytes. -/
theorem equivalentKeysGiveEqualSubkeys : Obligations.EquivalentKeysGiveEqualSubkeys :=
  fun key _ hn => keySchedule_congr (padKey_append_zeros key hn)

/-- KEYSCHED with a legal key length leaves the schedule of the key bytes in SUBKEY. -/
theorem subkeys_of_exec_keysched {s t : State} (hkey : keyCheck s = none) (h : exec .keysched s = .next t) :
    subkeys t = keySchedule (keyBytes s) := by
  rw [exec_keysched_ok hkey] at h
  cases h
  exact subkeys_of_one none (keySchedule_length _) (writesOf_commitSubkeys _)

/-- Settles O37: both states have the same key bytes, and the schedule of those is what KEYSCHED leaves. -/
theorem keyschedReadsOnlyTheKeyBytes : Obligations.KeyschedReadsOnlyTheKeyBytes := by
  intro s s' t t' hpos hmax hlen hbytes ht ht'
  have hkey : keyCheck s = none := keyCheck_none.mpr ⟨hpos, hmax⟩
  have hkey' : keyCheck s' = none := keyCheck_none.mpr (hlen ▸ ⟨hpos, hmax⟩)
  have hsame : keyBytes s' = keyBytes s := by
    rw [keyBytes, klen, hlen]
    exact readBytes_congr hbytes
  rw [subkeys_of_exec_keysched hkey ht, subkeys_of_exec_keysched hkey' ht', hsame]

end Sys2Proof.Machine

/-! The block transform undone (43_block_transform.md R172 to R178). -/

namespace Sys2Proof.Machine

/-! One decryption round. -/

/-- The A line, with its rotation amount, uu, as a number (R175). -/
theorem decRound_a (S : List Word) (r : BlockRegs) (i : Nat) :
    (decRound S r i).a = (rotr (r.d - S.getD (2 * i) 0) ((f r.c).toNat % 32) ^^^ f r.a) := by
  rw [← amt_eq_mod]
  rfl

/-- The C line, with its rotation amount, tt, as a number (R175). -/
theorem decRound_c (S : List Word) (r : BlockRegs) (i : Nat) :
    (decRound S r i).c = (rotr (r.b - S.getD (2 * i + 1) 0) ((f r.a).toNat % 32) ^^^ f r.c) := by
  rw [← amt_eq_mod]
  rfl

/-- Settles O40: A and C by their lines; the other registers are copied as the round defines them. -/
theorem decryptionRoundFollowsTheRule : Obligations.DecryptionRoundFollowsTheRule :=
  fun S r i _ _ => ⟨rfl, rfl, decRound_a S r i, rfl, decRound_c S r i, rfl⟩

/-! The whole transform. -/

/-- The bytes of four words load as those words (R170). -/
theorem loadBlock_wordsToBytes (a b c d : Word) :
    loadBlock (wordsToBytes [a, b, c, d]) = { a := a, b := b, c := c, d := d, tt := 0, uu := 0 } := by
  rw [loadBlock, bytesToWords_wordsToBytes]
  rfl

/-- Settles O41: with the block's words loaded, both transforms are their definitions' whitening and rounds. -/
theorem blockTransformsRunTheirSteps : Obligations.BlockTransformsRunTheirSteps := by
  intro a b c d S
  rw [encryptBlock, encryptRegs, decryptBlock, decryptRegs, loadBlock_wordsToBytes]
  exact ⟨⟨_, rfl, rfl⟩, ⟨_, rfl, rfl⟩⟩

/-- Decryption undoes the output whitening, then the rounds from the last one down, then the input whitening. -/
theorem decryptRegs_encryptBlock (b : List Byte) (S : List Word) :
    SameBlock (decryptRegs (encryptBlock b S) S) (loadBlock b) := by
  have hout := unwhitenOut_whitenOut S (loadBlock_storeBlock (encryptRegs b S))
  have hrounds := foldl_undo (fun i _ _ => decRound_encRound S i) roundNumbers _ _ hout
  exact unwhitenIn_whitenIn S hrounds

/-- Encryption undoes the same steps of decryption, in the opposite order. -/
theorem encryptRegs_decryptBlock (b : List Byte) (S : List Word) :
    SameBlock (encryptRegs (decryptBlock b S) S) (loadBlock b) := by
  have hin := whitenIn_unwhitenIn S (loadBlock_storeBlock (decryptRegs b S))
  have hrounds := foldl_undo (fun i _ _ => encRound_decRound S i) roundNumbers.reverse _ _ hin
  rw [List.reverse_reverse] at hrounds
  exact whitenOut_unwhitenOut S hrounds

theorem decryptBlock_encryptBlock {b : List Byte} (S : List Word) (h : b.length = 16) :
    decryptBlock (encryptBlock b S) S = b :=
  (storeBlock_congr (decryptRegs_encryptBlock b S)).trans (storeBlock_loadBlock h)

theorem encryptBlock_decryptBlock {b : List Byte} (S : List Word) (h : b.length = 16) :
    encryptBlock (decryptBlock b S) S = b :=
  (storeBlock_congr (encryptRegs_decryptBlock b S)).trans (storeBlock_loadBlock h)

/-- Settles O38: each transform undoes the other one's steps on the registers, which hold the whole block. -/
theorem blockTransformsAreInverse : Obligations.BlockTransformsAreInverse :=
  fun _ S hlen => ⟨decryptBlock_encryptBlock S hlen, encryptBlock_decryptBlock S hlen⟩

/-- After a block transform BLKOUT holds its output block. -/
theorem memRead_blkout_of_blockTransform {i : Instr} {s t : State} {blk : List Byte} {r : BlockRegs}
    (hlen : blk.length = 16)
    (hresult : commandResult i s = { outcome := none, updates := [.memWrite .blkout 0 blk, .blockRegs r] })
    (h : exec i s = .next t) : memRead t .blkout 0 16 = blk := by
  obtain ⟨_, hexec, hout, -⟩ := exec_blockTransform hlen hresult
  cases h.symm.trans hexec
  exact hout

/-- Settles O44: DECB decrypts, under the same subkeys, the block that ENCB encrypted. -/
theorem decbRecoversWhatEncbEncrypted : Obligations.DecbRecoversWhatEncbEncrypted := by
  intro s t u v hkeyv ht hkeyv' hsub hblk hv
  have hlen : (blkinBytes s).length = 16 := memRead_length ..
  have hct := memRead_blkout_of_blockTransform (encryptBlock_length ..) (encb_ok hkeyv) ht
  have hplain := memRead_blkout_of_blockTransform (decryptBlock_length ..) (decb_ok hkeyv') hv
  rw [hplain, hsub, hblk, hct, decryptBlock_encryptBlock _ hlen]

end Sys2Proof.Machine

/-! Padding and encryption undone (44_message_framer.md R198, R202). -/

namespace Sys2Proof.Machine

/-- The depadder finds the padder's own marker at the end of the message. -/
theorem unpad_pad (m : List Byte) : unpad (pad m) = .found m.length 0x80 := by
  refine (unpad_eq_found_iff _ _ _).mpr ⟨?_, ?_, by decide, fun j hafter _ => ?_⟩
  · rw [pad_length]; omega
  · rw [pad_getD, if_neg (Nat.lt_irrefl _), if_pos rfl, padMarker]
  · rw [pad_getD, if_neg (Nat.lt_asymm hafter), if_neg (Nat.ne_of_gt hafter)]

/-- The padder adds 0x80 and at most 16 bytes, of which R196 does not warn. -/
theorem padwarnOf_pad (m : List Byte) : padwarnOf (pad m).length m.length 0x80 = false := by
  have hadded : ¬ (pad m).length - m.length > 16 := by rw [pad_length]; omega
  rw [padwarnOf, decide_eq_false hadded]
  rfl

/-- Settles O46: the marker is the last nonzero byte of a padded message, at most 16 bytes from its end. -/
theorem unpadUndoesPad : Obligations.UnpadUndoesPad := fun m => ⟨unpad_pad m, padwarnOf_pad m⟩

/-- A padded message begins with the message. -/
theorem take_pad (m : List Byte) : (pad m).take m.length = m := List.take_left

/-- Decryption undoes encryption block by block, so under the same key it gives the padded message back. -/
theorem decryptMessage_encryptMessage (key m : List Byte) : decryptMessage key (encryptMessage key m) = pad m := by
  have hblock : ∀ k, k < m.length / 16 + 1 →
      decryptBlock (blockAt (encryptMessage key m) k) (keySchedule key) = blockAt (pad m) k := by
    intro k hk
    have hwhole : 16 * k + 16 ≤ (pad m).length := by rw [pad_length]; omega
    rw [blockAt_encryptMessage key m hk, decryptBlock_encryptBlock _ (blockAt_length hwhole)]
  calc decryptMessage key (encryptMessage key m)
      = mapBlocks (decryptBlock · (keySchedule key)) (encryptMessage key m) (m.length / 16 + 1) := by
        rw [decryptMessage, encryptMessage_length, pad_blocks]
    _ = mapBlocks (fun b => b) (pad m) (m.length / 16 + 1) := mapBlocks_congr hblock
    _ = (pad m).take (16 * (m.length / 16 + 1)) := mapBlocks_id _ (pad_length m).ge
    _ = pad m := by rw [← pad_length, List.take_length]

/-- What ENCM with legal lengths leaves for the host to read: the ciphertext in MSGOUT, and its length in OUTLEN. -/
theorem ciphertext_of_exec_encm {s t : State} (hkey : keyCheck s = none) (hfits : s.msglen.toNat ≤ 4095)
    (h : exec .encm s = .next t) :
    t.outlen.toNat = 16 * (s.msglen.toNat / 16 + 1) ∧
      memRead t .msgout 0 t.outlen.toNat = encryptMessage (keyBytes s) (msgBytes s) := by
  have hlen : (encryptMessage (keyBytes s) (msgBytes s)).length = 16 * (s.msglen.toNat / 16 + 1) := by
    rw [encryptMessage_length, pad_msgBytes_length]
  have houtlen := ofNat_pad_length_toNat hfits
  rw [exec_eq, encm_ok hkey (encLengthCheck_none.mpr hfits)] at h
  cases h
  refine ⟨houtlen, (congrArg (memRead _ .msgout 0) (houtlen.trans hlen.symm)).trans ?_⟩
  exact (memRead_msgout_of_two none (writesOf_encm _ _) (Nat.zero_add _).le).trans List.take_length

/-- DECM whose decrypted input is a padded message ends with no error and no warning, and with the message. -/
theorem exec_decm_of_padded {u : State} {m : List Byte} (hkey : keyCheck u = none) (hlength : decLengthCheck u = none)
    (hmax : m.length ≤ 4095) (hplain : decryptMessage (keyBytes u) (msgBytes u) = pad m) :
    ∃ v, exec .decm u = .next v ∧ v.status.err = u.status.err ∧ v.status.done = true ∧ v.status.padwarn = false ∧
      v.outlen.toNat = m.length ∧ v.marker = 0x80 ∧ memRead v .msgout 0 m.length = m := by
  have hexec := exec_decm_ok hkey hlength
  rw [hplain, depadded, unpad_pad, depadOutcome] at hexec
  have hwrites := writesOf_append_depadUpdates (writesOf_decmBlockUpdates (keyBytes u) (msgBytes u))
    (pad m).length (.found m.length 0x80)
  rw [hplain] at hwrites
  have hinside : 0 + m.length ≤ (pad m).length := by rw [pad_length]; omega
  have hout := memRead_msgout_of_two (s := u) none hwrites hinside
  obtain ⟨houtlen, hmarker, hstatus⟩ := finish_depad_found (decmBlockUpdates (keyBytes u) (msgBytes u)) u
    (pad m).length m.length 0x80
  obtain ⟨-, -, -, -, -, -, -, -, -, -, herr, -⟩ :=
    applyUpdates_fixed (decmBlockUpdates (keyBytes u) (msgBytes u)) u
  refine ⟨_, hexec, (congrArg Status.err hstatus).trans herr, congrArg Status.done hstatus,
    (congrArg Status.padwarn hstatus).trans (padwarnOf_pad m), ?_, hmarker, hout.trans (take_pad m)⟩
  rw [houtlen, BitVec.toNat_ofNat]
  exact Nat.mod_eq_of_lt (by omega)

/-- Settles O51: DECM reads the ciphertext that ENCM left, under the same key, so it decrypts to the padded message. -/
theorem decmRecoversWhatEncmEncrypted : Obligations.DecmRecoversWhatEncmEncrypted := by
  intro s t u hpos hmax hfits ht hsamekey hmsglen hmsgin herr
  have hkey : keyCheck s = none := keyCheck_none.mpr ⟨hpos, hmax⟩
  obtain ⟨houtlen, hout⟩ := ciphertext_of_exec_encm hkey hfits ht
  have hklen : u.keylen.toNat = s.keylen.toNat := by
    simpa [keyBytes, klen] using congrArg List.length hsamekey
  have hkey' : keyCheck u = none := keyCheck_none.mpr (hklen ▸ ⟨hpos, hmax⟩)
  have hlength : decLengthCheck u = none := by
    rw [decLengthCheck_none, hmsglen, houtlen]
    omega
  have hct : msgBytes u = encryptMessage (keyBytes s) (msgBytes s) := by
    rw [msgBytes, mlen, hmsglen, hmsgin, hout]
  have hplain : decryptMessage (keyBytes u) (msgBytes u) = pad (msgBytes s) := by
    rw [hsamekey, hct, decryptMessage_encryptMessage]
  obtain ⟨v, hv, hnoerr, hreport⟩ :=
    exec_decm_of_padded hkey' hlength ((msgBytes_length s).trans_le hfits) hplain
  rw [msgBytes_length] at hreport
  exact ⟨v, hv, hnoerr.trans herr, hreport⟩

end Sys2Proof.Machine

/-! The error codes each command can end with (60_exceptions.md R220). -/

namespace Sys2Proof.Machine

/-- The error causes that R220 lists for a command. -/
def raisableErrors : Instr → List ErrorCode
  | .nop => []
  | .keysched => [.invalidKey, .lengthRange]
  | .encb => [.keyNotScheduled]
  | .decb => [.keyNotScheduled]
  | .pad => [.lengthRange]
  | .unpad => [.invalidInputLength, .lengthRange, .paddingNotFound]
  | .encm => [.invalidKey, .lengthRange]
  | .decm => [.invalidKey, .invalidInputLength, .lengthRange, .paddingNotFound]
  | .illegal _ => [.illegalCommand]

/-- The first error of a list of checks is one of theirs. -/
theorem mem_of_firstError {cs : List (Option ErrorCode)} {e : ErrorCode} (h : firstError cs = some e) :
    some e ∈ cs := by
  induction cs with
  | nil => cases h
  | cons c cs ih =>
    cases c with
    | none => exact List.mem_cons_of_mem _ (ih h)
    | some e' => cases h; exact List.mem_cons_self

/-- A command with checks ends with an error of one of its checks, or with its run's. -/
theorem checked_outcome {cs : List (Option ErrorCode)} {r : CmdResult} {e : ErrorCode}
    (h : (checked cs r).outcome = some e) : some e ∈ cs ∨ r.outcome = some e := by
  obtain ⟨e', hfirst, hresult⟩ | ⟨-, hresult⟩ := checked_cases cs r
  · rw [hresult] at h
    cases h
    exact .inl (mem_of_firstError hfirst)
  · rw [hresult] at h
    exact .inr h

/-- The depadder's one error (R195). -/
theorem depadOutcome_some {d : Depad} {e : ErrorCode} (h : depadOutcome d = some e) : e = .paddingNotFound := by
  cases d with
  | found k mk => cases h
  | notFound => cases h; rfl

/-- A command's error is one that R220 lists for it. -/
theorem outcome_mem_raisableErrors {i : Instr} {s : State} {e : ErrorCode}
    (h : (commandResult i s).outcome = some e) : e ∈ raisableErrors i := by
  cases i with
  | nop => cases h
  | illegal w => cases h; exact List.mem_singleton_self _
  | keysched =>
    obtain hcheck | hrun := checked_outcome h
    · obtain rfl | rfl := keyCheck_some (List.mem_singleton.mp hcheck).symm <;> decide
    · cases hrun
  | encb | decb =>
    obtain hcheck | hrun := checked_outcome h
    · obtain rfl := keyValidCheck_some (List.mem_singleton.mp hcheck).symm; decide
    · cases hrun
  | pad =>
    obtain hcheck | hrun := checked_outcome h
    · obtain rfl := encLengthCheck_some (List.mem_singleton.mp hcheck).symm; decide
    · cases hrun
  | unpad =>
    obtain hcheck | hrun := checked_outcome h
    · obtain rfl | rfl := decLengthCheck_some (List.mem_singleton.mp hcheck).symm <;> decide
    · obtain rfl := depadOutcome_some hrun; decide
  | encm =>
    obtain hcheck | hrun := checked_outcome h
    · obtain hkey | hlength := List.mem_pair.mp hcheck
      · obtain rfl | rfl := keyCheck_some hkey.symm <;> decide
      · obtain rfl := encLengthCheck_some hlength.symm; decide
    · cases hrun
  | decm =>
    obtain hcheck | hrun := checked_outcome h
    · obtain hkey | hlength := List.mem_pair.mp hcheck
      · obtain rfl | rfl := keyCheck_some hkey.symm <;> decide
      · obtain rfl | rfl := decLengthCheck_some hlength.symm <;> decide
    · obtain rfl := depadOutcome_some hrun; decide

/-- From a state with no error pending, a completion reports its outcome's code, which is 0 for none. -/
theorem exec_errcode {i : Instr} {s t : State} (herr : s.status.err = false) (hcode : s.status.errcode = 0)
    (h : exec i s = .next t) :
    (t.status.err = true ↔ t.status.errcode ≠ 0) ∧
      ((commandResult i s).outcome = none ∧ t.status.errcode = 0 ∨
        ∃ e, (commandResult i s).outcome = some e ∧ t.status.errcode = errorNumber e) := by
  obtain ⟨-, -, -, -, -, -, -, -, -, -, herr', hcode'⟩ := applyUpdates_fixed (commandResult i s).updates s
  rw [exec_next h, finish_status]
  cases houtcome : (commandResult i s).outcome with
  | none => simp [completeStatus, reportError, herr', hcode', herr, hcode]
  | some e => cases e <;> simp [completeStatus, reportError, errorNumber]

/-- Settles O53: with no error pending the code is 0 or that of the outcome, which R220 lists for the command. -/
theorem eachCommandRaisesOnlyItsErrors : Obligations.EachCommandRaisesOnlyItsErrors := by
  intro i s t herr hcode h
  obtain ⟨hiff, hreport⟩ := exec_errcode herr hcode h
  refine ⟨hiff, ?_⟩
  have hcodes : t.status.errcode = 0 ∧ (commandResult i s).outcome = none ∨
      t.status.errcode ∈ (raisableErrors i).map errorNumber := by
    obtain ⟨hnone, hzero⟩ | ⟨e, hsome, hnumber⟩ := hreport
    · exact .inl ⟨hzero, hnone⟩
    · exact .inr (hnumber ▸ List.mem_map_of_mem (outcome_mem_raisableErrors hsome))
  cases i with
  | illegal w =>
    obtain ⟨-, hnone⟩ | hmem := hcodes
    · cases hnone
    · exact hmem
  | _ =>
    obtain ⟨hzero, -⟩ | hmem := hcodes
    · rw [hzero]; exact List.mem_cons_self
    · exact List.mem_cons_of_mem _ hmem

end Sys2Proof.Machine

/-! What may change KEYV, SUBKEY and the inputs (10_state.md R32, R33, 42_key_schedule.md R156). -/

namespace Sys2Proof.Machine

/-! The windows. -/

/-- The address map finds an address in the window it lies in (R66). -/
theorem locate_of_inWindow {b : Buffer} {a : Nat} (h : inWindow b a = true) :
    locate a = some (.window b (a - bufBase b)) := by
  obtain ⟨hlo, hhi⟩ := (inWindow_iff b a).mp h
  have hlast := Nat.le_sub_one_of_lt hhi
  cases b with
  | key => exact locate_key ⟨hlo, hlast⟩
  | subkey => exact locate_subkey ⟨hlo, hlast⟩
  | blkin => exact locate_blkin ⟨hlo, hlast⟩
  | blkout => exact locate_blkout ⟨hlo, hlast⟩
  | msgin => exact locate_msgin ⟨hlo, hlast⟩
  | msgout => exact locate_msgout ⟨hlo, hlast⟩

/-- So no address lies in two windows. -/
theorem eq_of_inWindow {b c : Buffer} {a : Nat} (hb : inWindow b a = true) (hc : inWindow c a = true) : b = c := by
  have hloc := (locate_of_inWindow hb).symm.trans (locate_of_inWindow hc)
  simp only [Option.some.injEq, Location.window.injEq] at hloc
  exact hloc.1

theorem bufBase_mod_four (b : Buffer) : bufBase b % 4 = 0 := by cases b <;> rfl

theorem bufSize_mod_four (b : Buffer) : bufSize b % 4 = 0 := by cases b <;> rfl

/-- Every byte of an aligned word whose first byte lies in a window lies in it too. -/
theorem inWindow_of_word {b : Buffer} {k a : Nat} (h4 : (bufBase b + k) % 4 = 0) (hk : k < bufSize b)
    (h : bufBase b + k ≤ a ∧ a < bufBase b + k + 4) : inWindow b a = true := by
  have hbase := bufBase_mod_four b
  have hsize := bufSize_mod_four b
  rw [inWindow_iff]
  omega

/-- Settles O57: the engine's own buffers are other windows, and no update reaches the host's registers. -/
theorem engineNeverWritesItsInputs : Obligations.EngineNeverWritesItsInputs := by
  intro i s t h
  refine ⟨fun a ha => ?_, ?_⟩
  · obtain ⟨b, hwin, hin⟩ : ∃ b, inWindow b a = true ∧ bufReadOnly b = false := by
      obtain hkey | hblkin | hmsgin := ha
      · exact ⟨.key, hkey, rfl⟩
      · exact ⟨.blkin, hblkin, rfl⟩
      · exact ⟨.msgin, hmsgin, rfl⟩
    refine exec_readByte h fun c hout => Bool.eq_false_iff.mpr fun hc => ?_
    rw [eq_of_inWindow hc hwin, hin] at hout
    cases hout
  · obtain ⟨hirqen, hkeylen, hmsglen, hopw, -, hinputs, hresp, hresets, -⟩ :=
      applyUpdates_fixed (commandResult i s).updates s
    rw [exec_next h]
    exact ⟨hkeylen, hmsglen, hirqen, hopw, hinputs, hresp, hresets⟩

/-! KEYV and SUBKEY across a command. -/

/-- A command that is no key schedule leaves KEYV and every byte of SUBKEY alone. -/
theorem exec_keeps_subkeys {i : Instr} {s t : State} (hi : ¬ (i = .keysched ∨ i = .encm ∨ i = .decm))
    (h : exec i s = .next t) :
    t.status.keyv = s.status.keyv ∧ ∀ a, inWindow .subkey a = true → readByte t a = readByte s a := by
  obtain hnot | ⟨hschedule, -⟩ := commandResult_rekeys i s
  · rw [exec_next h]
    constructor
    · rw [finish_status, completeStatus_keyv, applyUpdates_keyv_of hnot]
    · intro a ha
      rw [readByte_finish]
      refine readByte_applyUpdates fun u hu htouch => ?_
      obtain ⟨hfits, -⟩ := commandResult_good i s u hu
      cases u with
      | memWrite b k v =>
        have hb : inWindow b a = true := by
          simp only [Update.touches, Update.fits] at htouch hfits
          exact (inWindow_iff b a).mpr (by omega)
        exact hnot _ hu (eq_of_inWindow hb ha)
      | _ => exact htouch
  · exact absurd hschedule hi

/-- A host write leaves KEYV and every byte of SUBKEY alone: no write of the bus reaches them. -/
theorem busWrite_keeps_subkeys (s : State) (w : Addr) (v : Word) :
    (busWrite s w v).1.status.keyv = s.status.keyv ∧
      ∀ a, inWindow .subkey a = true → readByte (busWrite s w v).1 a = readByte s a := by
  obtain h | h | h | ⟨-, h4, h | h | h | ⟨b, k, hin, haddr, hk, h⟩⟩ := busWrite_cases s w v <;> rw [h]
  case inr.inr.inr.inr.inr.inr =>
    refine ⟨rfl, fun a ha => (readByte_memWrite s b k _ a).trans (if_neg fun hwritten => ?_)⟩
    rw [haddr] at h4
    rw [eq_of_inWindow (inWindow_of_word h4 hk hwritten) ha] at hin
    cases hin
  all_goals exact ⟨rfl, fun _ _ => rfl⟩

/-- The engine's completion of a command that runs a key schedule. -/
def CompletesKeySchedule (e : Event) (s : State) : Prop :=
  e = .engine ∧ s.phase = .running ∧ (decode s.opw = .keysched ∨ decode s.opw = .encm ∨ decode s.opw = .decm)

/-- A move that is neither the reset input nor the completion of a key schedule leaves KEYV and SUBKEY alone. -/
theorem move_keeps_subkeys {e : Event} {s t : State} (hreset : e ≠ .reset)
    (hschedule : ¬ CompletesKeySchedule e s) (h : move e s = .next t) :
    t.status.keyv = s.status.keyv ∧ ∀ a, inWindow .subkey a = true → readByte t a = readByte s a := by
  cases e with
  | hostRead a => cases h; exact ⟨rfl, fun _ _ => rfl⟩
  | hostWrite a v => cases h; exact busWrite_keeps_subkeys s a v
  | engine =>
    cases hphase : s.phase with
    | idle =>
      cases (engineStep_idle hphase).symm.trans h
      exact ⟨rfl, fun _ _ => rfl⟩
    | running =>
      exact exec_keeps_subkeys (fun hcommand => hschedule ⟨rfl, hphase, hcommand⟩)
        ((engineStep_running hphase).symm.trans h)
  | reset => exact absurd rfl hreset

/-- A move other than the reset input keeps KEYV set. -/
theorem move_keeps_keyv {e : Event} {s t : State} (hreset : e ≠ .reset) (h : move e s = .next t)
    (hkeyv : s.status.keyv = true) : t.status.keyv = true := by
  by_cases hschedule : CompletesKeySchedule e s
  · obtain ⟨rfl, hphase, -⟩ := hschedule
    obtain ⟨t', hexec, -, -, -, hkeeps⟩ := everyCommandCompletes (decode s.opw) s
    cases ((engineStep_running hphase).symm.trans h).symm.trans hexec
    exact hkeeps hkeyv
  · exact (move_keeps_subkeys hreset hschedule h).1.trans hkeyv

/-- Settles O55: only the reset input clears KEYV, and what is neither it nor a completed key schedule keeps it. -/
theorem keyValidIsSetOnlyByKeySchedules : Obligations.KeyValidIsSetOnlyByKeySchedules := by
  intro s t e h
  constructor
  · intro hset hclear
    by_contra hreset
    exact absurd ((move_keeps_keyv hreset h hset).symm.trans hclear) nofun
  · intro hclear hset
    have hreset : e ≠ .reset := by rintro rfl; cases h; cases hset
    by_contra hschedule
    obtain ⟨hkeyv, -⟩ := move_keeps_subkeys hreset hschedule h
    exact absurd ((hset.symm.trans hkeyv).trans hclear) nofun

/-- Settles O56: a move that is neither the reset input nor a completed key schedule keeps every byte of SUBKEY. -/
theorem subkeysChangeOnlyByKeySchedules : Obligations.SubkeysChangeOnlyByKeySchedules := by
  intro s t e a h ha hchanged
  by_contra hother
  obtain ⟨hreset, hschedule⟩ := not_or.mp hother
  obtain ⟨-, hbytes⟩ := move_keeps_subkeys hreset hschedule h
  exact hchanged (hbytes a ha)

end Sys2Proof.Machine

/-! Host accesses while a command runs (20_memory.md R76, 40_command_protocol.md R114). -/

namespace Sys2Proof.Machine

theorem SameInputs.refl (s : State) : SameInputs s s := ⟨rfl, rfl, rfl, rfl, rfl, rfl, rfl, rfl, rfl⟩

/-- The moves still to come are no input of a command. -/
theorem SameInputs.with_inputs {s t : State} (h : SameInputs s t) (es fs : List Event) :
    SameInputs { s with inputs := es } { t with inputs := fs } := by
  obtain ⟨hmem, hresets, hkeylen, hmsglen, hstatus, houtlen, hmarker, hopw, hphase⟩ := h
  exact ⟨hmem, hresets, hkeylen, hmsglen, hstatus, houtlen, hmarker, hopw, hphase⟩

/-- The response of an access is no input of a command. -/
theorem SameInputs.respond {s t : State} (h : SameInputs s t) (r : BusResponse) : SameInputs s (respond t r) := by
  obtain ⟨hmem, hresets, hkeylen, hmsglen, hstatus, houtlen, hmarker, hopw, hphase⟩ := h
  exact ⟨hmem, hresets, hkeylen, hmsglen, hstatus, houtlen, hmarker, hopw, hphase⟩

theorem hostRead_sameInputs (s : State) (a : Addr) : SameInputs s (hostRead s a) :=
  ⟨rfl, rfl, rfl, rfl, rfl, rfl, rfl, rfl, rfl⟩

/-- While BUSY = 1 a write reaches at most IRQEN: the bits of STATUS that it could clear are clear already. -/
theorem busWrite_sameInputs_of_busy {s : State} (hs : s.Inv) (hb : s.status.busy = true) (a : Addr) (v : Word) :
    SameInputs s (busWrite s a v).1 := by
  obtain h | h | h | ⟨hidle, -⟩ := busWrite_cases s a v
  · rw [h]; exact .refl s
  · rw [h, clearStatus_of_busy hs.status hb]; exact .refl s
  · rw [h]; exact ⟨rfl, rfl, rfl, rfl, rfl, rfl, rfl, rfl, rfl⟩
  · rw [hb] at hidle; cases hidle

/-- While BUSY = 1 a host access changes nothing that the running command reads or reports. -/
theorem move_sameInputs_of_busy {e : Event} {s t : State} (hs : s.Inv) (hb : s.status.busy = true)
    (he : e.isHostAccess = true) (h : move e s = .next t) : SameInputs s t := by
  cases e with
  | hostRead a => cases h; exact hostRead_sameInputs s a
  | hostWrite a v =>
    cases h
    exact (busWrite_sameInputs_of_busy hs hb a v).respond _
  | engine => cases he
  | reset => cases he

/-- The same holds of a run of host accesses, which leaves the moves after them to come. -/
theorem run_host_accesses (es : List Event) {s : State} {rest : List Event} (k : Nat) (hs : s.Inv)
    (hb : s.status.busy = true) (hes : es.all Event.isHostAccess = true) (hinputs : s.inputs = es ++ rest) :
    ∃ s', Host.Core.run Sys2Proof.core (es.length + k) s = Host.Core.run Sys2Proof.core k s' ∧
      SameInputs s s' ∧ s'.inputs = rest := by
  induction es generalizing s with
  | nil => exact ⟨s, by rw [List.length_nil, Nat.zero_add], .refl s, hinputs⟩
  | cons e es ih =>
    obtain ⟨he, hes'⟩ : e.isHostAccess = true ∧ es.all Event.isHostAccess = true := by simpa using hes
    have hcons : s.inputs = e :: (es ++ rest) := hinputs
    obtain ⟨t, hmove⟩ := move_next e { s with inputs := es ++ rest }
    have hinv : State.Inv { s with inputs := es ++ rest } := inv_of_fields hs rfl rfl rfl rfl
    have hsame : SameInputs s t :=
      ((SameInputs.refl s).with_inputs s.inputs (es ++ rest)).trans (move_sameInputs_of_busy hinv hb he hmove)
    have hbusy : t.status.busy = true := by rw [hsame.status, hb]
    obtain ⟨s', hrun, hsame', hinputs'⟩ := ih (move_inv hinv hmove) hbusy hes' (move_inputs hmove)
    rw [← step_of_cons hcons] at hmove
    refine ⟨s', ?_, hsame.trans hsame', hinputs'⟩
    rw [List.length_cons, Nat.add_right_comm, run_succ _ hmove, hrun]

/-- Two states that agree on what a command reads and reports agree on it after its completion. -/
theorem exec_congr {i : Instr} {s s' t t' : State} (hsame : SameInputs s s') (h : exec i s = .next t)
    (h' : exec i s' = .next t') : SameInputs t t' := by
  rw [exec_next h, exec_next h', commandResult_congr hsame]
  obtain ⟨hmem, hresets, hkeylen, hmsglen, hstatus, houtlen, hmarker, hopw, -⟩ :=
    applyUpdates_congr (commandResult i s).updates hsame
  exact ⟨hmem, hresets, hkeylen, hmsglen, congrArg (completeStatus · _) hstatus, houtlen, hmarker, hopw, rfl⟩

/-- Settles O58: the accesses leave a state that the command cannot tell from the first one. -/
theorem hostAccessesDoNotChangeTheResult : Obligations.HostAccessesDoNotChangeTheResult := by
  intro s t u es hs hb hes hinputs hrun hexec
  obtain ⟨s', hrun', hsame, hinputs'⟩ := run_host_accesses es 1 hs hb hes hinputs
  have hphase : s'.phase = .running := by
    rw [hsame.phase]
    cases hp : s.phase with
    | running => rfl
    | idle => rw [hs.phase.mp hp] at hb; cases hb
  have hdecode : decode s'.opw = decode s.opw := congrArg decode hsame.opw
  obtain ⟨hstep, -⟩ := engineMoveRunsTheLatchedCommand s' []
  obtain ⟨t', hexec'⟩ : ∃ t', exec (decode s'.opw) { s' with inputs := [] } = .next t' := ⟨_, exec_eq _ _⟩
  have hlast : Host.Core.run Sys2Proof.core 1 s' = .next t' := run_succ 0 ((hstep hphase hinputs').trans hexec')
  cases (hrun.symm.trans hrun').trans hlast
  obtain ⟨-, -, -, -, -, hnone, -⟩ := engineNeverWritesItsInputs _ _ _ hexec'
  rw [hdecode] at hexec'
  obtain ⟨hmem, -, hkeylen, hmsglen, hstatus, houtlen, hmarker, hopw, hidle⟩ :=
    exec_congr (hsame.with_inputs [] []) hexec hexec'
  exact ⟨hmem, hstatus, houtlen, hmarker, hkeylen, hmsglen, hopw, hidle, hnone⟩

end Sys2Proof.Machine
